-- ==== Sys2Proof/Word.lean ====
section
/-! DEFINITION. The machine's word types: a byte of the host's storage, a frame word, a response's result.
Bits are numbered from 0, the least significant, upward (00_scope R9). -/

namespace Sys2Proof

/-- One byte of the host's storage (20_memory R44). -/
abbrev Byte := BitVec 8

/-- A 16-bit value a host writes as a halfword (20_memory R45). -/
abbrev Half := BitVec 16

/-- A 32-bit frame word or request word (00_scope R7 `WORD_BITS`, R8 `REQ_BITS`). -/
abbrev Word := BitVec 32

/-- A 14-bit ADC sample (00_scope R7 `SAMPLE_BITS`). -/
abbrev Sample := BitVec 14

/-- A response's 64-bit result (00_scope R8 `RESULT_BITS`). -/
abbrev Result := BitVec 64

end Sys2Proof
end

