-- ==== Sys2Proof/Syntax.lean ====
section
/-! DEFINITION. The request operations: one constructor per row of spec/opcode_table.json (30_encoding R60, R61,
R65, R66). -/

namespace Sys2Proof

/-- A decoded request. The operands `i` and `femb` are mathematical integers (30_encoding R62, R63); the request word
can hold those from −2048 to 2047 (`Instr.wellFormed`; log 10). Fields an operation ignores (R64) are not kept (log 9). The
reserved rows keep the bits of `op` (and `rsv`) that the row leaves open. -/
inductive Instr where
  /-- `get_adc i` (40_sample_access R81). -/
  | getAdc (i : Int)
  /-- `get_u femb, i` (R82). -/
  | getU (femb : Int) (i : Int)
  /-- `get_v femb, i` (R83). -/
  | getV (femb : Int) (i : Int)
  /-- `get_x femb, i` (R84). -/
  | getX (femb : Int) (i : Int)
  /-- `timestamp` (41_field_access R100). -/
  | timestamp
  /-- `crate` (R101). -/
  | crate
  /-- `frame_version` (R102). -/
  | frameVersion
  /-- `slot` (R103). -/
  | slot
  /-- `fiber` (R104). -/
  | fiber
  /-- `femb_valid` (R105). -/
  | fembValid
  /-- `status_code_1` (R106). -/
  | statusCode1
  /-- `status_code_2` (R107). -/
  | statusCode2
  /-- `timestamp_1` (R108). -/
  | timestamp1
  /-- `timestamp_2` (R109). -/
  | timestamp2
  /-- `crc20` (R110). -/
  | crc20
  /-- `flex_word_12` (R111). -/
  | flexWord12
  /-- `eof` (R112). -/
  | eof
  /-- `flex_word_24` (R113). -/
  | flexWord24
  /-- Reserved `op` 0x12 to 0x13 (30_encoding R66); `low` is `op[0]`. -/
  | reservedOp12 (low : BitVec 1)
  /-- Reserved `op` 0x14 to 0x17 (R66); `low` is `op[1:0]`. -/
  | reservedOp14 (low : BitVec 2)
  /-- Reserved `op` 0x18 to 0x1F (R66); `low` is `op[2:0]`. -/
  | reservedOp18 (low : BitVec 3)
  /-- Nonzero `rsv`, whatever the `op` (R65). -/
  | reservedRsv (rsv : BitVec 3) (op : BitVec 5)
deriving DecidableEq, Repr

end Sys2Proof
end

