-- ==== Sys2Proof/WellFormed.lean ====
section
/-! DEFINITION. The requests that a request word can hold. -/

namespace Sys2Proof

/-- "fits in 12-bit two's complement (−2048 to 2047)" (30_encoding R62, R63, R69). -/
def fitsOperand (i : Int) : Bool :=
  decide (-2048 ≤ i) && decide (i ≤ 2047)

/-- A request some word encodes: operands that fit their 12 bits, and a reserved `rsv` that is not 0 (R65). -/
def Instr.wellFormed : Instr → Bool
  | .getAdc i => fitsOperand i
  | .getU femb i => fitsOperand femb && fitsOperand i
  | .getV femb i => fitsOperand femb && fitsOperand i
  | .getX femb i => fitsOperand femb && fitsOperand i
  | .timestamp => true
  | .crate => true
  | .frameVersion => true
  | .slot => true
  | .fiber => true
  | .fembValid => true
  | .statusCode1 => true
  | .statusCode2 => true
  | .timestamp1 => true
  | .timestamp2 => true
  | .crc20 => true
  | .flexWord12 => true
  | .eof => true
  | .flexWord24 => true
  | .reservedOp12 _ => true
  | .reservedOp14 _ => true
  | .reservedOp18 _ => true
  | .reservedRsv rsv _ => decide (rsv ≠ 0)

end Sys2Proof
end

