-- ==== Sys2Proof/Decode.lean ====
section
/-! DEFINITION. The decoder of request words, total on every word (30_encoding R60 to R67), and after it the encoder
(30_encoding R69), both from the field table of R60. -/

namespace Sys2Proof

/-- `op = req[4:0]` (30_encoding R60). -/
def opField (req : Word) : BitVec 5 := req.extractLsb' 0 5

/-- `rsv = req[7:5]` (R60). -/
def rsvField (req : Word) : BitVec 3 := req.extractLsb' 5 3

/-- `i = sext_12(req[19:8])` (R62). -/
def idxOperand (req : Word) : Int := (req.extractLsb' 8 12).toInt

/-- `femb = sext_12(req[31:20])` (R63). -/
def fembOperand (req : Word) : Int := (req.extractLsb' 20 12).toInt

/-- The operation an `op` code selects when `rsv` is 0 (R61), or the reserved row the code falls in (R66). -/
def decodeOp (req : Word) : Instr :=
  match (opField req).toNat with
  | 0 => .getAdc (idxOperand req)
  | 1 => .getU (fembOperand req) (idxOperand req)
  | 2 => .getV (fembOperand req) (idxOperand req)
  | 3 => .getX (fembOperand req) (idxOperand req)
  | 4 => .timestamp
  | 5 => .crate
  | 6 => .frameVersion
  | 7 => .slot
  | 8 => .fiber
  | 9 => .fembValid
  | 10 => .statusCode1
  | 11 => .statusCode2
  | 12 => .timestamp1
  | 13 => .timestamp2
  | 14 => .crc20
  | 15 => .flexWord12
  | 16 => .eof
  | 17 => .flexWord24
  | n =>
    if n < 20 then .reservedOp12 (req.extractLsb' 0 1)
    else if n < 24 then .reservedOp14 (req.extractLsb' 0 2)
    else .reservedOp18 (req.extractLsb' 0 3)

/-- The operation a request word stands for. Nonzero `rsv` is illegal whatever the `op` (R65), so it is looked at
first; decoding is total (R67). -/
def decode (req : Word) : Instr :=
  if rsvField req = 0 then decodeOp req else .reservedRsv (rsvField req) (opField req)

/-- A request word from its four fields (R60). -/
def packRequest (femb : BitVec 12) (idx : BitVec 12) (rsv : BitVec 3) (op : BitVec 5) : Word :=
  femb ++ idx ++ rsv ++ op

/-- An operation without operands: the assembler encodes the fields it does not take as 0 (R69). -/
def packPlain (op : BitVec 5) : Word := packRequest 0 0 0 op

/-- The request word of an operation, as the assembler of R69 writes it. -/
def encode : Instr → Word
  | .getAdc i => packRequest 0 (BitVec.ofInt 12 i) 0 0x00
  | .getU femb i => packRequest (BitVec.ofInt 12 femb) (BitVec.ofInt 12 i) 0 0x01
  | .getV femb i => packRequest (BitVec.ofInt 12 femb) (BitVec.ofInt 12 i) 0 0x02
  | .getX femb i => packRequest (BitVec.ofInt 12 femb) (BitVec.ofInt 12 i) 0 0x03
  | .timestamp => packPlain 0x04
  | .crate => packPlain 0x05
  | .frameVersion => packPlain 0x06
  | .slot => packPlain 0x07
  | .fiber => packPlain 0x08
  | .fembValid => packPlain 0x09
  | .statusCode1 => packPlain 0x0A
  | .statusCode2 => packPlain 0x0B
  | .timestamp1 => packPlain 0x0C
  | .timestamp2 => packPlain 0x0D
  | .crc20 => packPlain 0x0E
  | .flexWord12 => packPlain 0x0F
  | .eof => packPlain 0x10
  | .flexWord24 => packPlain 0x11
  | .reservedOp12 low => packPlain ((0b1001 : BitVec 4) ++ low)
  | .reservedOp14 low => packPlain ((0b101 : BitVec 3) ++ low)
  | .reservedOp18 low => packPlain ((0b11 : BitVec 2) ++ low)
  | .reservedRsv rsv op => packRequest 0 0 rsv op

/-- The bits of a request word that an operation takes notice of: `req[7:0]` and the operand fields it reads
(R61, R64). -/
def Instr.noticedBits : Instr → Word
  | .getAdc _ => 0x000FFFFF
  | .getU _ _ => 0xFFFFFFFF
  | .getV _ _ => 0xFFFFFFFF
  | .getX _ _ => 0xFFFFFFFF
  | .timestamp => 0x000000FF
  | .crate => 0x000000FF
  | .frameVersion => 0x000000FF
  | .slot => 0x000000FF
  | .fiber => 0x000000FF
  | .fembValid => 0x000000FF
  | .statusCode1 => 0x000000FF
  | .statusCode2 => 0x000000FF
  | .timestamp1 => 0x000000FF
  | .timestamp2 => 0x000000FF
  | .crc20 => 0x000000FF
  | .flexWord12 => 0x000000FF
  | .eof => 0x000000FF
  | .flexWord24 => 0x000000FF
  | .reservedOp12 _ => 0x000000FF
  | .reservedOp14 _ => 0x000000FF
  | .reservedOp18 _ => 0x000000FF
  | .reservedRsv _ _ => 0x000000FF

/-- The operation the decoder reads from an opcode-table row's bits: `w` is one 32-bit request word, the bits above
`nbits` being 0. More bits than a request word has are no request (log 19). -/
def decodeTableWord (nbits w : Nat) : Option Instr :=
  if nbits ≤ 32 then some (decode (BitVec.ofNat 32 (w % 2 ^ nbits))) else none

end Sys2Proof
end

