-- ==== Sys2Proof/Config.lean ====
section
/-! DEFINITION. The parameters of the machine (00_scope R7, R8), the host platform it stands in, and the two free
values the spec leaves open. The platform's values are OPEN in the spec, so every state carries its own (log 4). -/

namespace Sys2Proof

/-- `FRAME_WORDS` (R7): the frame has words 0 to 118. -/
abbrev Config.frameWords : Nat := 119

/-- `FRAME_BYTES` (R7). -/
abbrev Config.frameBytes : Nat := 476

/-- `HEADER_WORDS` (R7): payload word 0 is frame word 4. -/
abbrev Config.headerWords : Nat := 4

/-- `PAYLOAD_WORDS` (R7). -/
abbrev Config.payloadWords : Nat := 112

/-- `NUM_SAMPLES` (R7). -/
abbrev Config.numSamples : Nat := 256

/-- `SAMPLE_BITS` (R7). -/
abbrev Config.sampleBits : Nat := 14

/-- `WORD_BITS` (R7). -/
abbrev Config.wordBits : Nat := 32

/-- `U_PER_FEMB` (R7): the V group begins after the U group. -/
abbrev Config.uPerFemb : Nat := 40

/-- `V_PER_FEMB` (R7): the X group begins after the U and V groups. -/
abbrev Config.vPerFemb : Nat := 40

/-- `SAMPLES_PER_FEMB` (R7). -/
abbrev Config.samplesPerFemb : Nat := 128

/-- `HOST_BYTE_ORDER` (R8, 20_memory R44): how the host's storage assembles four bytes into a word. -/
inductive ByteOrder where
  | little
  | big
deriving DecidableEq, Repr

/-- What the host fixes for the machine. Every field is an OPEN parameter of 00_scope R8 or the buffer size of
20_memory R50 (log 4). -/
structure Platform where
  /-- `FRAME_BASE`, the byte address of frame word 0 (R8, 20_memory R44). -/
  frameBase : Nat
  /-- `HOST_BYTE_ORDER` (R8). -/
  byteOrder : ByteOrder
  /-- The size in bytes of the buffer the host offers; only 476 is admitted (20_memory R50, D26). -/
  bufferBytes : Nat
  /-- `N_PORTS`, the number of request ports; only 1 or more is admitted (R8, 60_exceptions R142). -/
  ports : Nat
deriving DecidableEq, Repr

/-- FREE VALUE (log 2): what a byte of the frame buffer holds that nothing has written: "unspecified until the host
writes it" (70_reset R151, 93 I5). It has no body, so nothing can be proved of its value; it is a function of the
address, so that reading twice gives the same (20_memory R49). -/
opaque Config.unwrittenByte : Nat → Byte

/-- FREE VALUE (log 6): the draw that is the result of a request with status OK whose frame the host wrote while the
request was in flight (70_reset R153, 93 I1). It is applied to the counter `draws` of State. -/
opaque Config.racedResult : Nat → Result

end Sys2Proof
end

