-- ==== Sys2Proof/Machine/State.lean ====
section
/-! DEFINITION. The machine's state as plain data: the frame buffer the block reads, the host's platform, the requests
in flight, the response port, and what happens next at the interface (10_state R20 to R38). -/

namespace Sys2Proof.Machine

/-- The status of a response (30_encoding R68, 60_exceptions R130). `internalFault` is a code of the port only: the
model makes that condition a `Fault` and never delivers it (60_exceptions R133; log 7). -/
inductive Status where
  | ok
  | indexOutOfRange
  | illegalRequest
  | internalFault
deriving DecidableEq, Repr

/-- A response: `resp_status` and `resp_result` (10_state R24, 30_encoding R68). -/
structure Response where
  status : Status
  result : Result
deriving DecidableEq, Repr

/-- A request in flight (10_state R37). -/
structure Pending where
  /-- The port it came in on, where its response goes out (R24). -/
  port : Nat
  /-- The request word (30_encoding R60). -/
  word : Word
  /-- Whether the host wrote the frame while this request was in flight (70_reset R153; log 6). -/
  overlapped : Bool
deriving DecidableEq, Repr

/-- One thing that happens at the interface (log 1). -/
inductive Turn where
  /-- A requester presents a request word on a port (10_state R22, R24). -/
  | request (port : Nat) (word : Word)
  /-- The block answers the oldest request in flight on a port (R24, 92_eei D18). -/
  | answer (port : Nat)
  /-- The host stores a byte (20_memory R45, R53). -/
  | storeByte (addr : Nat) (value : Byte)
  /-- The host stores a halfword in `HOST_BYTE_ORDER` (R45; log 17). -/
  | storeHalf (addr : Nat) (value : Half)
  /-- The host stores a word in `HOST_BYTE_ORDER` (R45; log 17). -/
  | storeWord (addr : Nat) (value : Word)
  /-- The block is reset (70_reset R150). -/
  | reset
deriving DecidableEq, Repr

/-- The host's storage that holds the frame: bytes by address, in one canonical form (`Memory.wf`): addresses strictly
rising. An unlisted address holds NO VALUE (log 3), so no entry can equal what an unlisted address reads as. -/
abbrev Memory := List Host.Cell

/-- The whole state. The block itself keeps none (10_state R20); this is the frame buffer, the interface and the
environment's data. -/
structure State where
  /-- The frame buffer `F`, as bytes of the host's storage (10_state R25, 20_memory R44). -/
  mem : Memory
  /-- `FRAME_BASE`, `HOST_BYTE_ORDER`, the buffer's size, `N_PORTS` (00_scope R8; log 4). -/
  platform : Platform
  /-- What the requesters, the host and the block do next, in order (model's own; log 1). -/
  turns : List Turn
  /-- The host's position in its sequence of requests, one per request (10_state R22). -/
  position : Nat
  /-- Requests in flight, oldest first (10_state R37, R38). -/
  inFlight : List Pending
  /-- The response port, with no value outside a response (10_state R24, R38). -/
  resp : Option Response
  /-- The frame words read for the last request, in order (10_state R24, 20_memory R41, R47). -/
  reads : List Nat
  /-- The responses delivered, oldest first, each with its port (10_state R24, 92_eei D18). -/
  responses : List (Nat × Response)
  /-- How many free draws the run has made (model's own; log 6). -/
  draws : Nat
deriving DecidableEq, Repr

/-- Why the machine stops. -/
inductive Fault where
  /-- The internal consistency check failed: a computed word index is outside the frame or the payload (20_memory R41,
  60_exceptions R133, D14). Raised by `frameRead` and `sampleExtract`; unreachable (40_sample_access R88). SAFE: the
  spec asks for a fault here. -/
  | internalFault
  /-- The host stores to an address outside the frame buffer, which is the one address space (20_memory R40; log 14).
  Raised by `hostStore`. SAFE: the model stops where the host would write memory the block never sees. -/
  | outsideFrame
deriving DecidableEq, Repr

/-- What the model gives no meaning to. -/
inductive Refusal where
  /-- An operation of the opcode table without a meaning yet. Raised by `exec` only. SAFE. -/
  | notModelled (mnemonic : String)
  /-- `FRAME_BASE` is not a multiple of 4: "not admitted, and a model refuses it" (20_memory R46). Raised by `step`.
  SAFE. -/
  | misalignedFrame
  /-- The buffer offered is not 476 bytes: "a host offering another size is refused" (20_memory R50, D26, I7). Raised by
  `step`. SAFE. -/
  | wrongBufferSize
  /-- The machine has no request port, where `N_PORTS` is at least 1 (00_scope R8; log 5). Raised by `step`. SAFE. -/
  | noPorts
  /-- A request on a port that is not one of the `N_PORTS` (60_exceptions R142; log 15). Raised by `runTurn`. SAFE. -/
  | noSuchPort
deriving DecidableEq, Repr

/-- The platform of the reset state (DESIGN CHOICE, log 4). -/
def resetPlatform : Platform :=
  { frameBase := 0, byteOrder := .little, bufferBytes := 476, ports := 1 }

/-- The machine right after reset: no request in flight, no response (70_reset R150), no byte of the frame written
(R151). How a program comes to run from here is log 11. -/
def State.reset : State :=
  { mem := []
    platform := resetPlatform
    turns := []
    position := 0
    inFlight := []
    resp := none
    reads := []
    responses := []
    draws := 0 }

end Sys2Proof.Machine
end

