-- ==== Sys2Proof/Machine/Ops.lean ====
section
/-! DEFINITION. The named operations over the frame buffer and the response port: byte storage and its canonical form,
byte order, `FrameRead`, field extraction, responding, raising an error, and the shared sample extractor. -/

namespace Sys2Proof.Machine

/-- The byte stored at an address; an unlisted address holds no value (log 3). -/
def Memory.read? : Memory → Nat → Option Byte
  | [], _ => none
  | c :: m, a => if c.1 = a then some c.2 else Memory.read? m a

/-- Stores a byte, keeping the addresses strictly rising. -/
def Memory.write : Memory → Nat → Byte → Memory
  | [], a, b => [(a, b)]
  | c :: m, a, b =>
    if a < c.1 then (a, b) :: c :: m
    else if a = c.1 then (a, b) :: m
    else c :: Memory.write m a b

/-- Stores bytes at rising addresses from `a` on. -/
def Memory.writeBytes : Memory → Nat → List Byte → Memory
  | m, _, [] => m
  | m, a, b :: bs => Memory.writeBytes (m.write a b) (a + 1) bs

/-- The canonical form: addresses strictly rising. No entry can equal what an unlisted address reads as, since that
holds no value (log 3). -/
abbrev Memory.wf (m : Memory) : Prop := m.Pairwise fun c d => c.1 < d.1

/-- The word that four bytes at rising addresses make in a byte order (20_memory R44). -/
def wordOfBytes (o : ByteOrder) (b0 b1 b2 b3 : Byte) : Word :=
  match o with
  | .little => b3 ++ b2 ++ b1 ++ b0
  | .big => b0 ++ b1 ++ b2 ++ b3

/-- The four bytes, at rising addresses, of a word in a byte order (20_memory R44). -/
def bytesOfWord (o : ByteOrder) (w : Word) : List Byte :=
  match o with
  | .little => [w.extractLsb' 0 8, w.extractLsb' 8 8, w.extractLsb' 16 8, w.extractLsb' 24 8]
  | .big => [w.extractLsb' 24 8, w.extractLsb' 16 8, w.extractLsb' 8 8, w.extractLsb' 0 8]

/-- The two bytes, at rising addresses, of a halfword in a byte order (20_memory R45; log 17). -/
def bytesOfHalf (o : ByteOrder) (h : Half) : List Byte :=
  match o with
  | .little => [h.extractLsb' 0 8, h.extractLsb' 8 8]
  | .big => [h.extractLsb' 8 8, h.extractLsb' 0 8]

/-- The byte of the host's storage at an address. One that nothing has written holds a FREE VALUE (70_reset R151;
log 2). -/
def frameByte (s : State) (a : Nat) : Byte :=
  (s.mem.read? a).getD (Config.unwrittenByte a)

/-- The frame word `F[k]`: the bytes from `FRAME_BASE + 4*k` on, in `HOST_BYTE_ORDER` (20_memory R44). -/
def frameWord (s : State) (k : Nat) : Word :=
  wordOfBytes s.platform.byteOrder
    (frameByte s (s.platform.frameBase + 4 * k))
    (frameByte s (s.platform.frameBase + 4 * k + 1))
    (frameByte s (s.platform.frameBase + 4 * k + 2))
    (frameByte s (s.platform.frameBase + 4 * k + 3))

/-- A read of frame word `k` at the frame read port (10_state R24, 20_memory R47). -/
def recordRead (k : Nat) (s : State) : State := { s with reads := s.reads ++ [k] }

/-- `FrameRead(k)` (00_scope R12, 20_memory R41): the word `F[k]`, and the read recorded at the frame read port. An
index outside 0 to 118 performs no read and has no value. -/
def frameRead (k : Nat) (s : State) : Option (Word × State) :=
  if k < Config.frameWords then some (frameWord s k, recordRead k s) else none

/-- `w[lo + width - 1 : lo]`, by explicit shift and mask (00_scope R9, 41_field_access, 93 I8). -/
def fieldOf (w : Word) (lo width : Nat) : Word :=
  (w >>> lo) &&& BitVec.ofNat 32 (2 ^ width - 1)

/-- `respond(status, result)` (00_scope R12): the request's one response stands at the response port. -/
def respond (st : Status) (r : Result) (s : State) : State :=
  { s with resp := some { status := st, result := r } }

/-- TAKING AN ERROR, the machine's one form of exception: the response carries the error's status and result 0, and
nothing else happens (00_scope R12, 60_exceptions R130, R135). There is no return from it: the block is at once ready
for the next request (R136). -/
def raiseError (st : Status) (s : State) : Host.Outcome State Fault Refusal :=
  .next (respond st 0 s)

/-- `return v` (00_scope R12): status OK and the value zero-extended to 64 bits (30_encoding R68). -/
def returnValue {n : Nat} (v : BitVec n) (s : State) : Host.Outcome State Fault Refusal :=
  .next (respond .ok (v.setWidth 64) s)

/-- The template of the field operations: read one word, return one bit field of it (41_field_access, opening). -/
def readField (k lo width : Nat) (s : State) : Host.Outcome State Fault Refusal :=
  match frameRead k s with
  | none => .fault .internalFault
  | some (w, t) => returnValue (fieldOf w lo width) t

/-- How `SampleExtract` ends (40_sample_access R80). -/
inductive Extraction where
  /-- The sample, and the state after the frame reads. -/
  | sample (v : Sample) (t : State)
  /-- `raise IndexOutOfRange()`. -/
  | outOfRange
  /-- `raise InternalFault()`. -/
  | internal
deriving DecidableEq, Repr

/-- The datapath of `SampleExtract` for an index in range (40_sample_access R80): the two-word window, the shifts, the
OR and the final mask. -/
def extractInRange (n : Nat) (s : State) : Extraction :=
  let offset := 14 * n
  let wordIndex := offset / 32
  let bitPosition := offset % 32
  let bitsFromFirst := min 14 (32 - bitPosition)
  if 111 < wordIndex then .internal
  else
    match frameRead (Config.headerWords + wordIndex) s with
    | none => .internal
    | some (w0, t) =>
      let low := w0 >>> bitPosition
      if bitsFromFirst < 14 then
        if 111 < wordIndex + 1 then .internal
        else
          match frameRead (Config.headerWords + wordIndex + 1) t with
          | none => .internal
          | some (w1, u) => .sample ((low ||| w1 <<< bitsFromFirst).setWidth 14) u
      else .sample (low.setWidth 14) t

/-- `SampleExtract(n)` (40_sample_access R80): the range check comes before any read. -/
def sampleExtract (n : Int) (s : State) : Extraction :=
  if n < 0 ∨ 255 < n then .outOfRange else extractInRange n.toNat s

/-- `s = SampleExtract(n); return s`, with its errors (40_sample_access R81 to R84). -/
def readSample (n : Int) (s : State) : Host.Outcome State Fault Refusal :=
  match sampleExtract n s with
  | .sample v t => returnValue v t
  | .outOfRange => raiseError .indexOutOfRange s
  | .internal => .fault .internalFault

end Sys2Proof.Machine
end

