-- ==== Sys2Proof/Machine/Fields.lean ====
section
/-! DEFINITION. The timestamp and the header and trailer field operations (41_field_access R100 to R113). -/

namespace Sys2Proof.Machine

/-- TIMESTAMP (41_field_access R100): `F[3] ++ F[2]`, the low half read first. -/
def execTimestamp (s : State) : Host.Outcome State Fault Refusal :=
  match frameRead 2 s with
  | none => .fault .internalFault
  | some (lo, t) =>
    match frameRead 3 t with
    | none => .fault .internalFault
    | some (hi, u) => returnValue (hi ++ lo) u

/-- CRATE (R101): `F[0][7:0]`. -/
def execCrate (s : State) : Host.Outcome State Fault Refusal := readField 0 0 8 s

/-- FRAME_VERSION (R102): `F[0][11:8]`. -/
def execFrameVersion (s : State) : Host.Outcome State Fault Refusal := readField 0 8 4 s

/-- SLOT (R103): `F[0][14:12]`. -/
def execSlot (s : State) : Host.Outcome State Fault Refusal := readField 0 12 3 s

/-- FIBER (R104): `F[0][15]`. -/
def execFiber (s : State) : Host.Outcome State Fault Refusal := readField 0 15 1 s

/-- FEMB_VALID (R105): `F[0][17:16]`. -/
def execFembValid (s : State) : Host.Outcome State Fault Refusal := readField 0 16 2 s

/-- STATUS_CODE_1 (R106): `F[0][31:18]`. -/
def execStatusCode1 (s : State) : Host.Outcome State Fault Refusal := readField 0 18 14 s

/-- STATUS_CODE_2 (R107): `F[1][31:0]`. -/
def execStatusCode2 (s : State) : Host.Outcome State Fault Refusal := readField 1 0 32 s

/-- TIMESTAMP_1 (R108): `F[2][31:0]`. -/
def execTimestamp1 (s : State) : Host.Outcome State Fault Refusal := readField 2 0 32 s

/-- TIMESTAMP_2 (R109): `F[3][31:0]`. -/
def execTimestamp2 (s : State) : Host.Outcome State Fault Refusal := readField 3 0 32 s

/-- CRC20 (R110): `F[116][19:0]`, never checked. -/
def execCrc20 (s : State) : Host.Outcome State Fault Refusal := readField 116 0 20 s

/-- FLEX_WORD_12 (R111): `F[116][31:20]`. -/
def execFlexWord12 (s : State) : Host.Outcome State Fault Refusal := readField 116 20 12 s

/-- EOF (R112): `F[117][7:0]`; the bits above are ignored (10_state R34). -/
def execEof (s : State) : Host.Outcome State Fault Refusal := readField 117 0 8 s

/-- FLEX_WORD_24 (R113): `F[118][23:0]`; the bits above are ignored (10_state R34). -/
def execFlexWord24 (s : State) : Host.Outcome State Fault Refusal := readField 118 0 24 s

end Sys2Proof.Machine
end

