-- ==== Sys2Proof/Machine/Illegal.lean ====
section
/-! DEFINITION. The reserved request words: each is answered ILLEGAL_REQUEST with result 0, and no frame word is read
(30_encoding R65, R66, 60_exceptions R132; log 8). -/

namespace Sys2Proof.Machine

/-- Reserved `op` 0x12 to 0x13 (30_encoding R66). -/
def execReservedOp12 (_low : BitVec 1) (s : State) : Host.Outcome State Fault Refusal := raiseError .illegalRequest s

/-- Reserved `op` 0x14 to 0x17 (R66). -/
def execReservedOp14 (_low : BitVec 2) (s : State) : Host.Outcome State Fault Refusal := raiseError .illegalRequest s

/-- Reserved `op` 0x18 to 0x1F (R66). -/
def execReservedOp18 (_low : BitVec 3) (s : State) : Host.Outcome State Fault Refusal := raiseError .illegalRequest s

/-- Nonzero `rsv`, whatever the `op` (R65). -/
def execReservedRsv (_rsv : BitVec 3) (_op : BitVec 5) (s : State) : Host.Outcome State Fault Refusal :=
  raiseError .illegalRequest s

end Sys2Proof.Machine
end

