-- ==== Sys2Proof/Machine/Operands.lean ====
section
/-! DEFINITION. The operand forms of the sample family: the flat sample index each operation computes, on
mathematical integers with no wrap-around (00_scope R11, 30_encoding R63). -/

namespace Sys2Proof.Machine

/-- GET_ADC's flat index is its operand (40_sample_access R81). -/
def flatIndexAdc (i : Int) : Int := i

/-- `128*femb + i` (R82). -/
def flatIndexU (femb i : Int) : Int := 128 * femb + i

/-- `128*femb + 40 + i` (R83). -/
def flatIndexV (femb i : Int) : Int := 128 * femb + 40 + i

/-- `128*femb + 80 + i` (R84). -/
def flatIndexX (femb i : Int) : Int := 128 * femb + 80 + i

end Sys2Proof.Machine
end

