-- ==== Sys2Proof/Machine/Sample.lean ====
section
/-! DEFINITION. The sample family: GET_ADC and its three channel-taxonomy wrappers (40_sample_access R80 to R92). -/

namespace Sys2Proof.Machine

/-- GET_ADC (40_sample_access R81). -/
def execGetAdc (i : Int) (s : State) : Host.Outcome State Fault Refusal :=
  readSample (flatIndexAdc i) s

/-- GET_U (R82); no check of `femb` or `i` of its own (R91). -/
def execGetU (femb i : Int) (s : State) : Host.Outcome State Fault Refusal :=
  readSample (flatIndexU femb i) s

/-- GET_V (R83). -/
def execGetV (femb i : Int) (s : State) : Host.Outcome State Fault Refusal :=
  readSample (flatIndexV femb i) s

/-- GET_X (R84). -/
def execGetX (femb i : Int) (s : State) : Host.Outcome State Fault Refusal :=
  readSample (flatIndexX femb i) s

end Sys2Proof.Machine
end

