-- ==== Sys2Proof/Machine/Dispatch.lean ====
section
/-! DEFINITION. One arm per operation: what answering a decoded request does. -/

namespace Sys2Proof.Machine

def exec (i : Instr) (s : State) : Host.Outcome State Fault Refusal :=
  match i with
  | .getAdc i0 => Sys2Proof.Machine.execGetAdc i0 s
  | .getU femb i0 => Sys2Proof.Machine.execGetU femb i0 s
  | .getV femb i0 => Sys2Proof.Machine.execGetV femb i0 s
  | .getX femb i0 => Sys2Proof.Machine.execGetX femb i0 s
  | .timestamp => Sys2Proof.Machine.execTimestamp s
  | .crate => Sys2Proof.Machine.execCrate s
  | .frameVersion => Sys2Proof.Machine.execFrameVersion s
  | .slot => Sys2Proof.Machine.execSlot s
  | .fiber => Sys2Proof.Machine.execFiber s
  | .fembValid => Sys2Proof.Machine.execFembValid s
  | .statusCode1 => Sys2Proof.Machine.execStatusCode1 s
  | .statusCode2 => Sys2Proof.Machine.execStatusCode2 s
  | .timestamp1 => Sys2Proof.Machine.execTimestamp1 s
  | .timestamp2 => Sys2Proof.Machine.execTimestamp2 s
  | .crc20 => Sys2Proof.Machine.execCrc20 s
  | .flexWord12 => Sys2Proof.Machine.execFlexWord12 s
  | .eof => Sys2Proof.Machine.execEof s
  | .flexWord24 => Sys2Proof.Machine.execFlexWord24 s
  | .reservedOp12 low => Sys2Proof.Machine.execReservedOp12 low s
  | .reservedOp14 low => Sys2Proof.Machine.execReservedOp14 low s
  | .reservedOp18 low => Sys2Proof.Machine.execReservedOp18 low s
  | .reservedRsv rsv op => Sys2Proof.Machine.execReservedRsv rsv op s

end Sys2Proof.Machine
end

