-- ==== Sys2Proof/Machine/Interface.lean ====
section
/-! DEFINITION. The machine's interface: requests presented and held in flight, the block taking one to answer, the
response delivered, the host's stores into the frame buffer, and the block's reset (10_state R22, R24, R37,
20_memory R45, R52, R53, 60_exceptions R142, 70_reset R150 to R153). What happens next is State's `turns` (log 1). -/

namespace Sys2Proof.Machine

/-- Why the model refuses the machine as the host offers it: a buffer that is not 476 bytes (20_memory R50, D26), a
`FRAME_BASE` that is not a multiple of 4 (20_memory R46, D22), or no request port (`N_PORTS` is at least 1: 00_scope R8,
D19; log 5). -/
def platformRefusal (p : Platform) : Option Refusal :=
  if p.bufferBytes ≠ Config.frameBytes then some .wrongBufferSize
  else if p.frameBase % 4 ≠ 0 then some .misalignedFrame
  else if p.ports = 0 then some .noPorts
  else none

/-- The oldest request of a port, and the requests left in flight: responses on one port come back in request order
(10_state R24). -/
def takeOldest (port : Nat) : List Pending → Option (Pending × List Pending)
  | [] => none
  | p :: ps =>
    if p.port = port then some (p, ps)
    else
      match takeOldest port ps with
      | none => none
      | some (q, qs) => some (q, p :: qs)

/-- The request that the block answers in this step, if this step answers one, and the state in which it does: the
request is no longer in flight, and the response port and the frame read port start anew. With no turn left the
oldest request of all is answered: every request gets its response (70_reset R157; log 13). -/
def fetch (s : State) : Option (Pending × State) :=
  match s.turns with
  | [] =>
    match s.inFlight with
    | [] => none
    | p :: ps => some (p, { s with inFlight := ps, resp := none, reads := [] })
  | .answer port :: rest =>
    match takeOldest port s.inFlight with
    | none => none
    | some (p, ps) => some (p, { s with turns := rest, inFlight := ps, resp := none, reads := [] })
  | _ => none

/-- The response that leaves the block: as the request's meaning gave it, but for a request with status OK whose frame
the host wrote while it was in flight; that result is a FREE draw, and the status is unaffected (70_reset R153;
log 6). -/
def deliveredResponse (p : Pending) (draws : Nat) (r : Response) : Response :=
  if p.overlapped ∧ r.status = .ok then { r with result := Config.racedResult draws } else r

/-- The response goes out on the request's port (10_state R24), and a free draw is counted where one was made. -/
def deliver (p : Pending) (t : State) : State :=
  match t.resp with
  | none => t
  | some r =>
    { t with
      resp := some (deliveredResponse p t.draws r)
      responses := t.responses ++ [(p.port, deliveredResponse p t.draws r)]
      draws := if p.overlapped ∧ r.status = .ok then t.draws + 1 else t.draws }

/-- Delivering the outcome of a request's meaning. -/
def deliverOutcome (p : Pending) (o : Host.Outcome State Fault Refusal) : Host.Outcome State Fault Refusal :=
  match o with
  | .next t => .next (deliver p t)
  | .fault r => .fault r
  | .refused r => .refused r

/-- A step that delivers no response: the response port has no value (10_state R38), no frame word is read, and the
turn is over. -/
def endTurn (s : State) : State :=
  { s with turns := s.turns.tail, resp := none, reads := [] }

/-- A requester presents a request word: it is in flight, and the host's position advances by one (10_state R22). -/
def presentRequest (port : Nat) (w : Word) (s : State) : Host.Outcome State Fault Refusal :=
  if port < s.platform.ports then
    .next { s with
      inFlight := s.inFlight ++ [{ port := port, word := w, overlapped := false }]
      position := s.position + 1 }
  else .refused .noSuchPort

/-- The request's frame has been written while it was in flight (70_reset R153). -/
def markOverlapped (p : Pending) : Pending := { p with overlapped := true }

/-- The host stores bytes at rising addresses of the frame buffer (20_memory R45). Every request in flight is
overlapped by the store (R53, 70_reset R153; log 6). An address outside the buffer does not exist (20_memory R40;
log 14). -/
def hostStore (a : Nat) (bs : List Byte) (s : State) : Host.Outcome State Fault Refusal :=
  if s.platform.frameBase ≤ a ∧ a + bs.length ≤ s.platform.frameBase + Config.frameBytes then
    .next { s with
      mem := s.mem.writeBytes a bs
      inFlight := s.inFlight.map markOverlapped }
  else .fault .outsideFrame

/-- The block's reset: the requests in flight are discarded, and their responses are never delivered (70_reset R150).
The frame (R151), the platform and the environment's data are not the block's and stay (log 20). -/
def resetBlock (s : State) : State := { s with inFlight := [] }

/-- A step in which the block answers no request. -/
def runTurn (s : State) : Host.Outcome State Fault Refusal :=
  match s.turns with
  | [] => .next (endTurn s)
  | .answer _ :: _ => .next (endTurn s)
  | .request port w :: _ => presentRequest port w (endTurn s)
  | .storeByte a v :: _ => hostStore a [v] (endTurn s)
  | .storeHalf a v :: _ => hostStore a (bytesOfHalf s.platform.byteOrder v) (endTurn s)
  | .storeWord a v :: _ => hostStore a (bytesOfWord s.platform.byteOrder v) (endTurn s)
  | .reset :: _ => .next (resetBlock (endTurn s))

/-- A program issued on one port, each request answered before the next is presented (10_state R22, 95_test_vectors
section 7). -/
def programTurns (port : Nat) : List Word → List Turn
  | [] => []
  | w :: ws => .request port w :: .answer port :: programTurns port ws

/-- A request placed so that the next step answers it: in flight on port 0 ahead of all others, and the block's turn
(log 11). -/
def placeRequest (w : Word) (s : State) : State :=
  { s with
    turns := .answer 0 :: s.turns
    inFlight := { port := 0, word := w, overlapped := false } :: s.inFlight }

end Sys2Proof.Machine
end

