-- ==== Sys2Proof/Machine/Step.lean ====
section
/-! DEFINITION. One step of the machine: the block answers one request, or one turn of the environment happens. -/

namespace Sys2Proof.Machine

/-- One step (10_state R24: one atomic step per request). A machine the spec does not admit is refused first
(20_memory R46, R50, 00_scope R8). -/
def step (s : State) : Host.Outcome State Fault Refusal :=
  match platformRefusal s.platform with
  | some r => .refused r
  | none =>
    match fetch s with
    | some (p, t) => deliverOutcome p (exec (decode p.word) t)
    | none => runTurn s

/-- The state whose next step answers the request word `w` (its bits above `nbits` are 0; log 11). -/
def State.withFetchWord (s : State) (nbits w : Nat) : State :=
  placeRequest (BitVec.ofNat 32 (w % 2 ^ nbits)) s

end Sys2Proof.Machine
end

