-- ==== Sys2Proof/Machine/Flags.lean ====
section
/-! DEFINITION. The machine's only condition codes: the 2-bit status of a response, which belongs to that response and
is not kept (10_state R23, 30_encoding R68, 60_exceptions R130). -/

namespace Sys2Proof.Machine

/-- `resp_status`: the code of a status (30_encoding R68, 60_exceptions R130). -/
def statusCode : Status → BitVec 2
  | .ok => 0
  | .indexOutOfRange => 1
  | .illegalRequest => 2
  | .internalFault => 3

/-- The response port as 66 bits, `resp_status` above `resp_result` (10_state R24). -/
def responseBits (r : Response) : BitVec 66 := statusCode r.status ++ r.result

end Sys2Proof.Machine
end

