-- ==== Sys2Proof/Safety.lean ====
section
/-! DEFINITION. The terms that statements about the machine use: the frame as the spec sees it, the closed form of a
sample, the response a request must get from a frame, and the invariant of the machine. None of it is used by `step`:
it is written from the spec's laws, in arithmetic of its own. -/

namespace Sys2Proof

open Sys2Proof.Machine

/-- The frame as the spec's suggested type (00_scope R13): 119 words. -/
abbrev Frame := Fin 119 → Word

/-- The frame a state's buffer holds (10_state R25, 20_memory R44). -/
def frameOf (s : State) : Frame := fun k => frameWord s k

/-- Payload word `P[p] = F[4 + p]` (10_state R30). -/
def payloadWord (F : Frame) (p : Fin 112) : Word := F ⟨4 + p, by omega⟩

/-- Payload bit `b = P[b div 32][b mod 32]` (20_memory R43). -/
def payloadBit (F : Frame) (b : Fin 3584) : Bool :=
  (payloadWord F ⟨b / 32, by omega⟩).getLsbD (b % 32)

/-- `PB = P[111] ++ … ++ P[0]` as a number (40_sample_access R85). -/
def payloadValue (F : Frame) : Nat := ∑ p : Fin 112, (payloadWord F p).toNat * 2 ^ (32 * (p : Nat))

/-- `PB[14*n + 13 : 14*n]`, the closed form of sample n (R85). -/
def sampleOf (F : Frame) (n : Nat) : Sample := BitVec.ofNat 14 (payloadValue F / 2 ^ (14 * n))

/-- `pack(v_0, …, v_255)`: the payload with `PB = Σ v_i · 2^(14 i)` (R85, 95_test_vectors section 2). -/
def packSamples (v : Fin 256 → Sample) : Nat := ∑ i : Fin 256, (v i).toNat * 2 ^ (14 * (i : Nat))

/-- The sample indices that straddle two words: n ≡ 2, 4, 6, 9, 11 or 13 (mod 16) (R87). -/
def straddles (n : Nat) : Bool := [2, 4, 6, 9, 11, 13].contains (n % 16)

/-- The frame words an in-range sample reads (20_memory R47, by the table of 40_sample_access R87). -/
def sampleReads (n : Nat) : List Nat :=
  if straddles n then [4 + 14 * n / 32, 5 + 14 * n / 32] else [4 + 14 * n / 32]

/-- A 12-bit two's complement value as an integer, by arithmetic (00_scope R10). -/
def signed12 (x : Nat) : Int := if x % 4096 < 2048 then (x % 4096 : Nat) else (x % 4096 : Nat) - 4096

/-- The flat sample index of a sample-family request word, by its low byte (R81 to R84). -/
def flatIndexOf (req : Word) : Int :=
  let i := signed12 (req.toNat / 2 ^ 8)
  let femb := signed12 (req.toNat / 2 ^ 20)
  match req.toNat % 256 with
  | 0 => i
  | 1 => 128 * femb + i
  | 2 => 128 * femb + 40 + i
  | _ => 128 * femb + 80 + i

/-- An OK response (30_encoding R68). -/
def okResponse (v : Nat) : Response := { status := .ok, result := BitVec.ofNat 64 v }

/-- A response with an error status: result 0 (30_encoding R68, 60_exceptions R135). -/
def errorResponse (st : Status) : Response := { status := st, result := 0 }

/-- Bits `hi` down to `lo` of a word, as a number (00_scope R9). -/
def bitsOf (w : Word) (hi lo : Nat) : Nat := w.toNat / 2 ^ lo % 2 ^ (hi + 1 - lo)

/-- `decode(F, req)` of 20_memory R52: the response to a request word, a function of the frame and the word alone,
written from the tables of 30_encoding R61 and 41_field_access and the closed form of R85. -/
def answerOf (F : Frame) (req : Word) : Response :=
  match req.toNat % 256 with
  | 4 => okResponse ((F 2).toNat + (F 3).toNat * 2 ^ 32)
  | 5 => okResponse (bitsOf (F 0) 7 0)
  | 6 => okResponse (bitsOf (F 0) 11 8)
  | 7 => okResponse (bitsOf (F 0) 14 12)
  | 8 => okResponse (bitsOf (F 0) 15 15)
  | 9 => okResponse (bitsOf (F 0) 17 16)
  | 10 => okResponse (bitsOf (F 0) 31 18)
  | 11 => okResponse (bitsOf (F 1) 31 0)
  | 12 => okResponse (bitsOf (F 2) 31 0)
  | 13 => okResponse (bitsOf (F 3) 31 0)
  | 14 => okResponse (bitsOf (F 116) 19 0)
  | 15 => okResponse (bitsOf (F 116) 31 20)
  | 16 => okResponse (bitsOf (F 117) 7 0)
  | 17 => okResponse (bitsOf (F 118) 23 0)
  | op =>
    if op < 4 then
      if 0 ≤ flatIndexOf req ∧ flatIndexOf req ≤ 255 then okResponse (sampleOf F (flatIndexOf req).toNat).toNat
      else errorResponse .indexOutOfRange
    else errorResponse .illegalRequest

/-- The frame words a request reads, in order (20_memory R47). -/
def readsOf (req : Word) : List Nat :=
  match req.toNat % 256 with
  | 4 => [2, 3]
  | 5 => [0]
  | 6 => [0]
  | 7 => [0]
  | 8 => [0]
  | 9 => [0]
  | 10 => [0]
  | 11 => [1]
  | 12 => [2]
  | 13 => [3]
  | 14 => [116]
  | 15 => [116]
  | 16 => [117]
  | 17 => [118]
  | op =>
    if op < 4 then
      if 0 ≤ flatIndexOf req ∧ flatIndexOf req ≤ 255 then sampleReads (flatIndexOf req).toNat else []
    else []

/-- The whole effect of answering a request: the response stands at the response port, the words `ks` have been read at
the frame read port, and NOTHING ELSE of the state is changed (10_state R20, 60_exceptions R135). -/
def answeredWith (s : State) (ks : List Nat) (r : Response) : State :=
  { s with reads := s.reads ++ ks, resp := some r }

/-- The `match` of an operation's row of spec/opcode_table.json, under mask 0x000000FF; none for the reserved rows
(30_encoding R67). -/
def Instr.tableMatch : Instr → Option Word
  | .getAdc _ => some 0x00000000
  | .getU _ _ => some 0x00000001
  | .getV _ _ => some 0x00000002
  | .getX _ _ => some 0x00000003
  | .timestamp => some 0x00000004
  | .crate => some 0x00000005
  | .frameVersion => some 0x00000006
  | .slot => some 0x00000007
  | .fiber => some 0x00000008
  | .fembValid => some 0x00000009
  | .statusCode1 => some 0x0000000A
  | .statusCode2 => some 0x0000000B
  | .timestamp1 => some 0x0000000C
  | .timestamp2 => some 0x0000000D
  | .crc20 => some 0x0000000E
  | .flexWord12 => some 0x0000000F
  | .eof => some 0x00000010
  | .flexWord24 => some 0x00000011
  | .reservedOp12 _ => none
  | .reservedOp14 _ => none
  | .reservedOp18 _ => none
  | .reservedRsv _ _ => none

/-- A response the machine may deliver: never `internalFault` (60_exceptions R133), and result 0 with any status but OK
(30_encoding R68). -/
abbrev properResponse (r : Response) : Prop := r.status ≠ .internalFault ∧ (r.status ≠ .ok → r.result = 0)

/-- The invariant every step keeps: the storage in canonical form and inside the frame buffer (20_memory R40); at least
one port (00_scope R8), and requests and responses on ports that exist (60_exceptions R142); every response proper; the
frame read port within the frame (20_memory R41); at most one response for each request presented (10_state R24). -/
structure Inv (s : State) : Prop where
  canonical : Memory.wf s.mem
  inFrame : ∀ c ∈ s.mem, s.platform.frameBase ≤ c.1 ∧ c.1 < s.platform.frameBase + 476
  portExists : 1 ≤ s.platform.ports
  portsInFlight : ∀ p ∈ s.inFlight, p.port < s.platform.ports
  portsAnswered : ∀ r ∈ s.responses, r.1 < s.platform.ports
  answeredProper : ∀ r ∈ s.responses, properResponse r.2
  respProper : ∀ r, s.resp = some r → properResponse r
  readsInFrame : ∀ k ∈ s.reads, k < 119
  oneResponseEach : s.responses.length + s.inFlight.length ≤ s.position

/-- A step that completes: neither a fault nor a refusal. -/
def Completes (s : State) : Prop := ∃ t, step s = .next t

/-- `k` steps of the machine (Host.Core.run) reach a next state. -/
def RunsTo (s : State) (k : Nat) (t : State) : Prop :=
  Host.Core.run { State := State, Fault := Fault, Refusal := Refusal, step := step, reset := State.reset } k s = .next t

end Sys2Proof
end

