-- ==== Sys2Proof/Certificates/Slice0/Obligations.lean ====
section
/-! DEFINITION. The statements about the machine. Where a statement rests on a choice of the model's own its docstring
names the entry of the assumption log. -/

open Sys2Proof Sys2Proof.Machine

/-! ### Encoding -/

/-- Decode and encode agree on every well-formed request, with every operand at every value its 12 bits hold
(30_encoding R60 to R66, R69). -/
def Obligations.DecodeInvertsEncode : Prop :=
  ∀ i : Instr, i.wellFormed = true → decode (encode i) = i

/-- The other direction: every request word decodes to a well-formed request, and encoding that gives the word back but
for the fields the operation ignores (30_encoding R64, R67). That `encode` writes those as 0 is R69's for the 18
operations and the model's for the reserved rows (log 9). -/
def Obligations.EncodeKeepsNoticedBits : Prop :=
  ∀ w : Word, (decode w).wellFormed = true ∧ encode (decode w) = w &&& (decode w).noticedBits

/-- 30_encoding R67: the low byte alone tells the operation, it is the row's `match`, and exactly the 18 values 0x00 to
0x11 are legal. -/
def Obligations.LowByteSelectsTheOperation : Prop :=
  (∀ w : Word, (decode w).tableMatch = if (w &&& 0xFF#32).toNat ≤ 0x11 then some (w &&& 0xFF#32) else none) ∧
  (List.range 256).filter (fun b => (decode (BitVec.ofNat 32 b)).tableMatch.isSome) = List.range 18

/-- Request words written out in the spec (30_encoding R69, 60_exceptions R134, 95_test_vectors sections 3 and 6) decode
to the requests they stand for. -/
def Obligations.SpecRequestWordsDecode : Prop :=
  decode 0x00100001 = .getU 1 0 ∧ decode 0x000FFF00 = .getAdc (-1) ∧ decode 0xFFF0C801 = .getU (-1) 200 ∧
  decode 0x00102702 = .getV 1 39 ∧ decode 0x00102F03 = .getX 1 47 ∧ decode 0x00300704 = .timestamp ∧
  decode 0xFFFFFF05 = .crate ∧ decode 0x0000000E = .crc20 ∧ decode 0x00000011 = .flexWord24 ∧
  decode 0x00000012 = .reservedOp12 0 ∧ decode 0x0000001F = .reservedOp18 7 ∧ decode 0x000FFF20 = .reservedRsv 1 0

/-! ### A step runs the decoded request -/

/-- In a machine the spec admits (20_memory R46, R50, 00_scope R8), the step that takes request `p` to answer is `exec` of the
decoded request in the state `fetch` gives, with the response delivered on `p`'s port; `withFetchWord` places exactly
such a request. -/
def Obligations.StepRunsDecodedRequest : Prop :=
  (∀ (s t : State) (p : Pending) (i : Instr), platformRefusal s.platform = none → fetch s = some (p, t) →
    decode p.word = i → i.wellFormed = true → step s = deliverOutcome p (exec i t)) ∧
  (∀ (s : State) (w : Word), platformRefusal s.platform = none →
    step (s.withFetchWord 32 w.toNat) =
      deliverOutcome { port := 0, word := w, overlapped := false }
        (exec (decode w) { s with resp := none, reads := [] }))

/-! ### The sample family -/

/-- 40_sample_access R81, GET_ADC: its words and operand, its result and whole effect for every index in range, and its
errors. -/
def Obligations.GetAdcReturnsItsSample : Prop :=
  (∀ w : Word, w.toNat % 256 = 0x00 → decode w = .getAdc (signed12 (w.toNat / 2 ^ 8))) ∧
  (∀ (i : Int) (s : State), 0 ≤ i → i ≤ 255 →
    exec (.getAdc i) s =
      .next (answeredWith s (sampleReads i.toNat) (okResponse (sampleOf (frameOf s) i.toNat).toNat))) ∧
  (∀ (i : Int) (s : State), i < 0 ∨ 255 < i →
    exec (.getAdc i) s = .next (answeredWith s [] (errorResponse .indexOutOfRange))) ∧
  (∀ (w : Word) (s : State), opField w = 0x00 → rsvField w ≠ 0 →
    exec (decode w) s = .next (answeredWith s [] (errorResponse .illegalRequest)))

/-- 40_sample_access R82, GET_U: sample `128*femb + i`, for every `femb` and `i` and with no check of either alone. -/
def Obligations.GetUReturnsTranslatedSample : Prop :=
  (∀ w : Word, w.toNat % 256 = 0x01 →
    decode w = .getU (signed12 (w.toNat / 2 ^ 20)) (signed12 (w.toNat / 2 ^ 8))) ∧
  (∀ (femb i n : Int) (s : State), n = 128 * femb + i → 0 ≤ n → n ≤ 255 →
    exec (.getU femb i) s =
      .next (answeredWith s (sampleReads n.toNat) (okResponse (sampleOf (frameOf s) n.toNat).toNat))) ∧
  (∀ (femb i n : Int) (s : State), n = 128 * femb + i → n < 0 ∨ 255 < n →
    exec (.getU femb i) s = .next (answeredWith s [] (errorResponse .indexOutOfRange))) ∧
  (∀ (w : Word) (s : State), opField w = 0x01 → rsvField w ≠ 0 →
    exec (decode w) s = .next (answeredWith s [] (errorResponse .illegalRequest)))

/-- 40_sample_access R83, GET_V: sample `128*femb + 40 + i`. -/
def Obligations.GetVReturnsTranslatedSample : Prop :=
  (∀ w : Word, w.toNat % 256 = 0x02 →
    decode w = .getV (signed12 (w.toNat / 2 ^ 20)) (signed12 (w.toNat / 2 ^ 8))) ∧
  (∀ (femb i n : Int) (s : State), n = 128 * femb + 40 + i → 0 ≤ n → n ≤ 255 →
    exec (.getV femb i) s =
      .next (answeredWith s (sampleReads n.toNat) (okResponse (sampleOf (frameOf s) n.toNat).toNat))) ∧
  (∀ (femb i n : Int) (s : State), n = 128 * femb + 40 + i → n < 0 ∨ 255 < n →
    exec (.getV femb i) s = .next (answeredWith s [] (errorResponse .indexOutOfRange))) ∧
  (∀ (w : Word) (s : State), opField w = 0x02 → rsvField w ≠ 0 →
    exec (decode w) s = .next (answeredWith s [] (errorResponse .illegalRequest)))

/-- 40_sample_access R84, GET_X: sample `128*femb + 80 + i`. -/
def Obligations.GetXReturnsTranslatedSample : Prop :=
  (∀ w : Word, w.toNat % 256 = 0x03 →
    decode w = .getX (signed12 (w.toNat / 2 ^ 20)) (signed12 (w.toNat / 2 ^ 8))) ∧
  (∀ (femb i n : Int) (s : State), n = 128 * femb + 80 + i → 0 ≤ n → n ≤ 255 →
    exec (.getX femb i) s =
      .next (answeredWith s (sampleReads n.toNat) (okResponse (sampleOf (frameOf s) n.toNat).toNat))) ∧
  (∀ (femb i n : Int) (s : State), n = 128 * femb + 80 + i → n < 0 ∨ 255 < n →
    exec (.getX femb i) s = .next (answeredWith s [] (errorResponse .indexOutOfRange))) ∧
  (∀ (w : Word) (s : State), opField w = 0x03 → rsvField w ≠ 0 →
    exec (decode w) s = .next (answeredWith s [] (errorResponse .illegalRequest)))

/-- 40_sample_access R85: the barrel shifter's sample n is `PB[14*n + 13 : 14*n]`, and a payload built by packing 256
values gives every one of them back. -/
def Obligations.PackedSamplesRoundTrip : Prop :=
  (∀ (n : Nat) (s : State), n ≤ 255 → ∃ t, sampleExtract n s = .sample (sampleOf (frameOf s) n) t) ∧
  (∀ (v : Fin 256 → Sample) (s : State), payloadValue (frameOf s) = packSamples v → ∀ i : Fin 256,
    exec (.getAdc (i : Nat)) s = .next (answeredWith s (sampleReads i) (okResponse (v i).toNat)))

/-- 10_state R30, 20_memory R43: bit j of sample n is payload bit `14*n + j`, which is `P[b div 32][b mod 32]`. -/
def Obligations.SampleBitsAreStreamBits : Prop :=
  ∀ (n j : Nat) (s : State) (hn : n ≤ 255) (hj : j < 14), ∃ v t,
    sampleExtract n s = .sample v t ∧ v.getLsbD j = payloadBit (frameOf s) ⟨14 * n + j, by omega⟩

/-- 40_sample_access R92: the extractor equals a funnel shift of the two-word window; without a straddle the second
word does not matter. -/
def Obligations.ExtractorIsFunnelShift : Prop :=
  ∀ (n : Nat) (s : State), n ≤ 255 → ∃ v t, sampleExtract n s = .sample v t ∧
    (straddles n = true →
      v = ((frameWord s (5 + 14 * n / 32) ++ frameWord s (4 + 14 * n / 32)) >>> (14 * n % 32)).setWidth 14) ∧
    (straddles n = false → ∀ w1 : Word,
      v = ((w1 ++ frameWord s (4 + 14 * n / 32)) >>> (14 * n % 32)).setWidth 14)

/-- 40_sample_access R86: the result of every OK response of the sample family is a 14-bit value. -/
def Obligations.SampleResultsFitFourteenBits : Prop :=
  ∀ (w : Word) (s : State), w.toNat % 256 < 4 → ∃ ks r, exec (decode w) s = .next (answeredWith s ks r) ∧
    (r.status = .ok → r.result.toNat ≤ 16383 ∧ r.result.extractLsb' 14 50 = 0)

/-- 40_sample_access R88: the internal check fails for no index, and every frame read of the family is of a payload
word. -/
def Obligations.SampleReadsStayInPayload : Prop :=
  ∀ (n : Int) (s : State), sampleExtract n s ≠ .internal ∧
    ∀ v t, sampleExtract n s = .sample v t →
      ∃ ks, t = { s with reads := s.reads ++ ks } ∧ ∀ k ∈ ks, 4 ≤ k ∧ k ≤ 115

/-- 40_sample_access R89, 30_encoding R70: the wrappers give GET_ADC's answer at the translated index, and every flat
index is one channel of one group of one board. -/
def Obligations.WrappersPartitionTheSamples : Prop :=
  (∀ (femb i : Int) (s : State),
    exec (.getU femb i) s = exec (.getAdc (128 * femb + i)) s ∧
    exec (.getV femb i) s = exec (.getAdc (128 * femb + 40 + i)) s ∧
    exec (.getX femb i) s = exec (.getAdc (128 * femb + 80 + i)) s) ∧
  (∀ (n : Nat) (s : State), n ≤ 255 →
    (n % 128 < 40 → exec (.getAdc n) s = exec (.getU (n / 128 : Nat) (n % 128 : Nat)) s) ∧
    (40 ≤ n % 128 → n % 128 < 80 → exec (.getAdc n) s = exec (.getV (n / 128 : Nat) (n % 128 - 40 : Nat)) s) ∧
    (80 ≤ n % 128 → exec (.getAdc n) s = exec (.getX (n / 128 : Nat) (n % 128 - 80 : Nat)) s))

/-! ### Timestamp and fields -/

/-- 41_field_access R100, TIMESTAMP: its words, and the two halves concatenated, with its whole effect. -/
def Obligations.TimestampConcatenatesHalves : Prop :=
  (∀ w : Word, w.toNat % 256 = 0x04 → decode w = .timestamp) ∧
  (∀ s : State, exec .timestamp s =
    .next (answeredWith s [2, 3] { status := .ok, result := frameWord s 3 ++ frameWord s 2 })) ∧
  (∀ (w : Word) (s : State), opField w = 0x04 → rsvField w ≠ 0 →
    exec (decode w) s = .next (answeredWith s [] (errorResponse .illegalRequest)))

/-- 41_field_access R114: TIMESTAMP is `lo + hi * 2^32`, and `(TIMESTAMP_2 << 32) | TIMESTAMP_1`. -/
def Obligations.TimestampArithmetic : Prop :=
  ∀ s : State, ∃ ts hi lo : Result,
    exec .timestamp s = .next (answeredWith s [2, 3] { status := .ok, result := ts }) ∧
    exec .timestamp2 s = .next (answeredWith s [3] { status := .ok, result := hi }) ∧
    exec .timestamp1 s = .next (answeredWith s [2] { status := .ok, result := lo }) ∧
    ts.toNat = (frameWord s 2).toNat + (frameWord s 3).toNat * 2 ^ 32 ∧ ts.toNat ≤ 2 ^ 64 - 1 ∧
    ts = hi <<< 32 ||| lo

/-- 41_field_access R101 to R106: the six fields of header word 0, each with its words, its result and its whole
effect. -/
def Obligations.HeaderWordZeroFields : Prop :=
  (∀ w : Word, (w.toNat % 256 = 0x05 → decode w = .crate) ∧ (w.toNat % 256 = 0x06 → decode w = .frameVersion) ∧
    (w.toNat % 256 = 0x07 → decode w = .slot) ∧ (w.toNat % 256 = 0x08 → decode w = .fiber) ∧
    (w.toNat % 256 = 0x09 → decode w = .fembValid) ∧ (w.toNat % 256 = 0x0A → decode w = .statusCode1)) ∧
  (∀ s : State,
    exec .crate s = .next (answeredWith s [0] (okResponse (bitsOf (frameWord s 0) 7 0))) ∧
    exec .frameVersion s = .next (answeredWith s [0] (okResponse (bitsOf (frameWord s 0) 11 8))) ∧
    exec .slot s = .next (answeredWith s [0] (okResponse (bitsOf (frameWord s 0) 14 12))) ∧
    exec .fiber s = .next (answeredWith s [0] (okResponse (bitsOf (frameWord s 0) 15 15))) ∧
    exec .fembValid s = .next (answeredWith s [0] (okResponse (bitsOf (frameWord s 0) 17 16))) ∧
    exec .statusCode1 s = .next (answeredWith s [0] (okResponse (bitsOf (frameWord s 0) 31 18))))

/-- 41_field_access R107 to R109: the whole-word fields of header words 1 to 3. -/
def Obligations.HeaderWholeWordFields : Prop :=
  (∀ w : Word, (w.toNat % 256 = 0x0B → decode w = .statusCode2) ∧ (w.toNat % 256 = 0x0C → decode w = .timestamp1) ∧
    (w.toNat % 256 = 0x0D → decode w = .timestamp2)) ∧
  (∀ s : State,
    exec .statusCode2 s = .next (answeredWith s [1] { status := .ok, result := (frameWord s 1).setWidth 64 }) ∧
    exec .timestamp1 s = .next (answeredWith s [2] { status := .ok, result := (frameWord s 2).setWidth 64 }) ∧
    exec .timestamp2 s = .next (answeredWith s [3] { status := .ok, result := (frameWord s 3).setWidth 64 }))

/-- 41_field_access R110 to R113: the four trailer fields. -/
def Obligations.TrailerFields : Prop :=
  (∀ w : Word, (w.toNat % 256 = 0x0E → decode w = .crc20) ∧ (w.toNat % 256 = 0x0F → decode w = .flexWord12) ∧
    (w.toNat % 256 = 0x10 → decode w = .eof) ∧ (w.toNat % 256 = 0x11 → decode w = .flexWord24)) ∧
  (∀ s : State,
    exec .crc20 s = .next (answeredWith s [116] (okResponse (bitsOf (frameWord s 116) 19 0))) ∧
    exec .flexWord12 s = .next (answeredWith s [116] (okResponse (bitsOf (frameWord s 116) 31 20))) ∧
    exec .eof s = .next (answeredWith s [117] (okResponse (bitsOf (frameWord s 117) 7 0))) ∧
    exec .flexWord24 s = .next (answeredWith s [118] (okResponse (bitsOf (frameWord s 118) 23 0))))

/-- 41_field_access R115: the field operations' results put the header words 0 to 3 and the trailer words together
again, but for the ignored bits. -/
def Obligations.FieldsRecoverTheWords : Prop :=
  ∀ s : State, ∃ c v l f e x w1 w2 w3 q g m h : Result,
    exec .crate s = .next (answeredWith s [0] { status := .ok, result := c }) ∧
    exec .frameVersion s = .next (answeredWith s [0] { status := .ok, result := v }) ∧
    exec .slot s = .next (answeredWith s [0] { status := .ok, result := l }) ∧
    exec .fiber s = .next (answeredWith s [0] { status := .ok, result := f }) ∧
    exec .fembValid s = .next (answeredWith s [0] { status := .ok, result := e }) ∧
    exec .statusCode1 s = .next (answeredWith s [0] { status := .ok, result := x }) ∧
    exec .statusCode2 s = .next (answeredWith s [1] { status := .ok, result := w1 }) ∧
    exec .timestamp1 s = .next (answeredWith s [2] { status := .ok, result := w2 }) ∧
    exec .timestamp2 s = .next (answeredWith s [3] { status := .ok, result := w3 }) ∧
    exec .crc20 s = .next (answeredWith s [116] { status := .ok, result := q }) ∧
    exec .flexWord12 s = .next (answeredWith s [116] { status := .ok, result := g }) ∧
    exec .eof s = .next (answeredWith s [117] { status := .ok, result := m }) ∧
    exec .flexWord24 s = .next (answeredWith s [118] { status := .ok, result := h }) ∧
    c ||| v <<< 8 ||| l <<< 12 ||| f <<< 15 ||| e <<< 16 ||| x <<< 18 = (frameWord s 0).setWidth 64 ∧
    w1 = (frameWord s 1).setWidth 64 ∧ w2 = (frameWord s 2).setWidth 64 ∧ w3 = (frameWord s 3).setWidth 64 ∧
    q ||| g <<< 20 = (frameWord s 116).setWidth 64 ∧
    m = ((frameWord s 117).extractLsb' 0 8).setWidth 64 ∧ h = ((frameWord s 118).extractLsb' 0 24).setWidth 64

/-! ### Errors -/

/-- 30_encoding R65, R66, 60_exceptions R132: every request word with nonzero `rsv` or a reserved `op` is answered
ILLEGAL_REQUEST with result 0 and no frame read, and so is each reserved row of the opcode table. -/
def Obligations.ReservedRequestsAreIllegal : Prop :=
  (∀ (w : Word) (s : State), rsvField w ≠ 0 ∨ 0x12 ≤ (opField w).toNat →
    exec (decode w) s = .next (answeredWith s [] (errorResponse .illegalRequest))) ∧
  (∀ (s : State) (a : BitVec 1) (b : BitVec 2) (c : BitVec 3) (rsv : BitVec 3) (op : BitVec 5),
    exec (.reservedOp12 a) s = .next (answeredWith s [] (errorResponse .illegalRequest)) ∧
    exec (.reservedOp14 b) s = .next (answeredWith s [] (errorResponse .illegalRequest)) ∧
    exec (.reservedOp18 c) s = .next (answeredWith s [] (errorResponse .illegalRequest)) ∧
    exec (.reservedRsv rsv op) s = .next (answeredWith s [] (errorResponse .illegalRequest)))

/-- 60_exceptions R134: each request reports exactly one status, ILLEGAL_REQUEST before INDEX_OUT_OF_RANGE; the example
word of the rule; INTERNAL_FAULT never comes up (40_sample_access R88). -/
def Obligations.ErrorsByPriority : Prop :=
  (∀ (w : Word) (s : State), ∃ ks r, exec (decode w) s = .next (answeredWith s ks r) ∧
    r.status =
      (if 0x12 ≤ w.toNat % 256 then .illegalRequest
       else if w.toNat % 256 < 4 ∧ (flatIndexOf w < 0 ∨ 255 < flatIndexOf w) then .indexOutOfRange
       else .ok)) ∧
  (∀ s : State, exec (decode 0x000FFF20) s = .next (answeredWith s [] (errorResponse .illegalRequest)))

/-- 10_state R20, 60_exceptions R133, R135, 40_sample_access R88: whatever the request, answering it completes, changes
nothing but the response port and the frame read port, reads at most two words, all of the frame, and never reports
INTERNAL_FAULT. -/
def Obligations.NoRequestStops : Prop :=
  ∀ (i : Instr) (s : State), ∃ ks r, exec i s = .next (answeredWith s ks r) ∧ properResponse r ∧
    ks.length ≤ 2 ∧ ∀ k ∈ ks, k < 119

/-- 30_encoding R68, 60_exceptions R130: the status codes, and the 66 bits of a response. -/
def Obligations.StatusCodesOfResponses : Prop :=
  statusCode .ok = 0 ∧ statusCode .indexOutOfRange = 1 ∧ statusCode .illegalRequest = 2 ∧ statusCode .internalFault = 3 ∧
  (∀ r r' : Response, responseBits r = responseBits r' → r = r')

/-! ### The whole block -/

/-- 20_memory R52, R47: the response to a request is `decode(F, req)`, a function of the frame and the request word
alone, and the frame words read are those the spec lists. -/
def Obligations.EveryRequestIsAnsweredAsSpecified : Prop :=
  ∀ (w : Word) (s : State), exec (decode w) s = .next (answeredWith s (readsOf w) (answerOf (frameOf s) w))

/-- 10_state R34: the ignored trailer bits `F[117][31:8]` and `F[118][31:24]` reach no response: two states whose frames
agree on all other bits answer every request alike. -/
def Obligations.IgnoredBitsReachNoResponse : Prop :=
  ∀ (i : Instr) (s s' : State), (∀ k, k < 117 → frameWord s k = frameWord s' k) →
    (frameWord s 117).extractLsb' 0 8 = (frameWord s' 117).extractLsb' 0 8 →
    (frameWord s 118).extractLsb' 0 24 = (frameWord s' 118).extractLsb' 0 24 →
    ∃ ks r, exec i s = .next (answeredWith s ks r) ∧ exec i s' = .next (answeredWith s' ks r)

/-- 41_field_access R116: a field operation's response depends only on the words its pseudocode names, and on no bit of
`req[31:8]`. -/
def Obligations.FieldsDependOnNamedWordsOnly : Prop :=
  ∀ (w w' : Word) (s s' : State), 4 ≤ w.toNat % 256 → w.toNat % 256 ≤ 17 → w'.toNat % 256 = w.toNat % 256 →
    (∀ k ∈ readsOf w, frameWord s k = frameWord s' k) →
    ∃ r, exec (decode w) s = .next (answeredWith s (readsOf w) r) ∧
      exec (decode w') s' = .next (answeredWith s' (readsOf w) r)

/-- 20_memory R49: repeating a request gives the same response, and the frame is as it was. -/
def Obligations.RepeatedRequestSameResponse : Prop :=
  ∀ (i : Instr) (s : State), ∃ t u, exec i s = .next t ∧ exec i t = .next u ∧ u.resp = t.resp ∧ t.resp ≠ none ∧
    t.mem = s.mem ∧ u.mem = s.mem

/-! ### The interface -/

/-- 10_state R24: an answer turn takes the port's oldest request, and (with the host's duty kept) delivers the response
of 20_memory R52 on that port; the rest of the state stays. -/
def Obligations.AnswerTurnDeliversOldest : Prop :=
  ∀ (s : State) (port : Nat) (rest : List Turn) (p : Pending) (ps : List Pending),
    platformRefusal s.platform = none → s.turns = .answer port :: rest → takeOldest port s.inFlight = some (p, ps) →
    p.overlapped = false →
    p.port = port ∧
    step s = .next { s with
      turns := rest
      inFlight := ps
      reads := readsOf p.word
      resp := some (answerOf (frameOf s) p.word)
      responses := s.responses ++ [(port, answerOf (frameOf s) p.word)] }

/-- 20_memory R52, 60_exceptions R142, 10_state R24: for EVERY schedule of answer turns over any ports, the responses of
each port are `decode(F, req)` of its oldest requests, in request order. A turn on a port with nothing in flight passes
with no effect, which is the model's choice (log 13). -/
def Obligations.AnyInterleavingAnswersInOrder : Prop :=
  ∀ (s : State) (ports : List Nat), platformRefusal s.platform = none → s.turns = ports.map .answer →
    (∀ p ∈ s.inFlight, p.overlapped = false) →
    ∃ t, RunsTo s ports.length t ∧ t.mem = s.mem ∧ t.platform = s.platform ∧ ∀ port : Nat,
      t.responses.filter (fun r => r.1 = port) =
        s.responses.filter (fun r => r.1 = port) ++
          ((s.inFlight.filter (fun p => p.port = port)).take (ports.count port)).map
            (fun p => (port, answerOf (frameOf s) p.word))

/-- 70_reset R157 (every request gets its response) and 10_state R24: with no turn left, the requests in flight are all
answered, oldest first, in as many steps as there are requests (which order across ports: the model's, log 13). -/
def Obligations.EveryRequestInFlightIsAnswered : Prop :=
  ∀ s : State, platformRefusal s.platform = none → s.turns = [] → (∀ p ∈ s.inFlight, p.overlapped = false) →
    ∃ t, RunsTo s s.inFlight.length t ∧ t.inFlight = [] ∧ t.mem = s.mem ∧
      t.responses = s.responses ++ s.inFlight.map (fun p => (p.port, answerOf (frameOf s) p.word))

/-- 10_state R24, R38: each step delivers one response, on the port of the request it took, or none, and outside a
response the response port has no value. -/
def Obligations.OneResponsePerRequest : Prop :=
  ∀ s t : State, step s = .next t →
    (∃ p u r, fetch s = some (p, u) ∧ t.responses = s.responses ++ [(p.port, r)] ∧ t.resp = some r ∧
      t.inFlight.length + 1 = s.inFlight.length) ∨
    (fetch s = none ∧ t.responses = s.responses ∧ t.resp = none)

/-- 10_state R22, 60_exceptions R142: a request presented on a port that exists is in flight after all earlier ones, and
the host's position advances by one; on a port that does not exist it is refused (log 15). -/
def Obligations.PresentedRequestIsInFlight : Prop :=
  ∀ (s : State) (port : Nat) (w : Word) (rest : List Turn), platformRefusal s.platform = none →
    s.turns = .request port w :: rest →
    (port < s.platform.ports → step s = .next { s with
      turns := rest
      position := s.position + 1
      inFlight := s.inFlight ++ [{ port := port, word := w, overlapped := false }]
      resp := none
      reads := [] }) ∧
    (s.platform.ports ≤ port → step s = .refused .noSuchPort)

/-- 10_state R22: the host's position advances by one per request presented, and nothing else changes it. -/
def Obligations.PositionCountsRequests : Prop :=
  ∀ s t : State, step s = .next t →
    ((∃ port w rest, s.turns = .request port w :: rest) → t.position = s.position + 1) ∧
    ((∀ port w rest, s.turns ≠ .request port w :: rest) → t.position = s.position)

/-- 70_reset R153: the request whose frame the host wrote while it was in flight keeps its status; its result with
status OK is a free draw, whatever its value (log 6), and with any other status it is 0. It is answered as any other:
the oldest of the port whose turn it is (10_state R24), or the oldest of all with no turn left (log 13). The whole next
state is given: the other requests stay in flight in their order, and the frame words read are those of
20_memory R47. -/
def Obligations.OverlappedResultIsFree : Prop :=
  ∀ (s : State) (p : Pending) (before after : List Pending), platformRefusal s.platform = none →
    s.inFlight = before ++ p :: after → p.overlapped = true →
    ((∃ rest, s.turns = .answer p.port :: rest ∧ ∀ q ∈ before, q.port ≠ p.port) ∨ (s.turns = [] ∧ before = [])) →
    ((answerOf (frameOf s) p.word).status = .ok →
      step s = .next { s with
        turns := s.turns.tail
        inFlight := before ++ after
        reads := readsOf p.word
        resp := some { status := .ok, result := Config.racedResult s.draws }
        responses := s.responses ++ [(p.port, { status := .ok, result := Config.racedResult s.draws })]
        draws := s.draws + 1 }) ∧
    ((answerOf (frameOf s) p.word).status ≠ .ok →
      step s = .next { s with
        turns := s.turns.tail
        inFlight := before ++ after
        reads := readsOf p.word
        resp := some (errorResponse (answerOf (frameOf s) p.word).status)
        responses := s.responses ++ [(p.port, errorResponse (answerOf (frameOf s) p.word).status)] })

/-- 20_memory R44: byte `FRAME_BASE + 4*k + j` of the storage is bits `[8*j+7 : 8*j]` of `F[k]` in a little host, and
bits `[31-8*j : 24-8*j]` in a big one. -/
def Obligations.FrameWordsFromHostBytes : Prop :=
  ∀ (s : State) (k j : Nat), k < 119 → j < 4 →
    (s.platform.byteOrder = .little →
      (frameWord s k).extractLsb' (8 * j) 8 = frameByte s (s.platform.frameBase + 4 * k + j)) ∧
    (s.platform.byteOrder = .big →
      (frameWord s k).extractLsb' (24 - 8 * j) 8 = frameByte s (s.platform.frameBase + 4 * k + j))

/-- 20_memory R44, R45, R53: a word the host stores at word k of the frame is what the block then reads there, in either
byte order; every other byte of the storage is as it was, and every request in flight is overlapped (70_reset R153;
log 6). -/
def Obligations.StoredWordIsReadBack : Prop :=
  ∀ (s : State) (k : Nat) (v : Word) (rest : List Turn), platformRefusal s.platform = none → k < 119 →
    s.turns = .storeWord (s.platform.frameBase + 4 * k) v :: rest →
    ∃ t, step s = .next t ∧ frameWord t k = v ∧
      (∀ a, a < s.platform.frameBase + 4 * k ∨ s.platform.frameBase + 4 * k + 4 ≤ a → frameByte t a = frameByte s a) ∧
      t = { s with
        turns := rest
        mem := t.mem
        inFlight := s.inFlight.map (fun p => { p with overlapped := true })
        resp := none
        reads := [] }

/-- 20_memory R45: what a halfword or a byte the host stores makes of the word it lies in, in each byte order; no other
byte of the storage changes, every request in flight is overlapped (70_reset R153; log 6), and the rest of the state is
as it was. Halfwords in `HOST_BYTE_ORDER` are the model's reading (log 17). -/
def Obligations.NarrowStoresChangeTheirLanes : Prop :=
  ∀ (s : State) (k : Nat) (rest : List Turn), platformRefusal s.platform = none → k < 119 →
    (∀ (j : Nat) (v : Byte), j < 4 → s.turns = .storeByte (s.platform.frameBase + 4 * k + j) v :: rest →
      ∃ t, step s = .next t ∧
        (s.platform.byteOrder = .little → (frameWord t k).extractLsb' (8 * j) 8 = v) ∧
        (s.platform.byteOrder = .big → (frameWord t k).extractLsb' (24 - 8 * j) 8 = v) ∧
        frameByte t (s.platform.frameBase + 4 * k + j) = v ∧
        (∀ a, a ≠ s.platform.frameBase + 4 * k + j → frameByte t a = frameByte s a) ∧
        t = { s with
          turns := rest
          mem := t.mem
          inFlight := s.inFlight.map (fun p => { p with overlapped := true })
          resp := none
          reads := [] }) ∧
    (∀ (j : Nat) (v : Half), j < 2 → s.turns = .storeHalf (s.platform.frameBase + 4 * k + 2 * j) v :: rest →
      ∃ t, step s = .next t ∧
        (s.platform.byteOrder = .little → (frameWord t k).extractLsb' (16 * j) 16 = v) ∧
        (s.platform.byteOrder = .big → (frameWord t k).extractLsb' (16 - 16 * j) 16 = v) ∧
        (∀ a, a < s.platform.frameBase + 4 * k + 2 * j ∨ s.platform.frameBase + 4 * k + 2 * j + 2 ≤ a →
          frameByte t a = frameByte s a) ∧
        t = { s with
          turns := rest
          mem := t.mem
          inFlight := s.inFlight.map (fun p => { p with overlapped := true })
          resp := none
          reads := [] })

/-- 20_memory R40 (no other address space exists; the stop is the model's, log 14): a byte, a halfword or a word stored
with ANY of its bytes outside the frame buffer faults, also where it crosses an edge of the buffer. -/
def Obligations.StoreOutsideFrameFaults : Prop :=
  ∀ (s : State) (a : Nat) (rest : List Turn), platformRefusal s.platform = none →
    (∀ v : Byte, s.turns = .storeByte a v :: rest →
      a < s.platform.frameBase ∨ s.platform.frameBase + 476 ≤ a → step s = .fault .outsideFrame) ∧
    (∀ v : Half, s.turns = .storeHalf a v :: rest →
      a < s.platform.frameBase ∨ s.platform.frameBase + 476 ≤ a + 1 → step s = .fault .outsideFrame) ∧
    (∀ v : Word, s.turns = .storeWord a v :: rest →
      a < s.platform.frameBase ∨ s.platform.frameBase + 476 ≤ a + 3 → step s = .fault .outsideFrame)

/-- 10_state R25, 20_memory R49: no step but a host store changes the frame buffer, and no step changes the platform. -/
def Obligations.OnlyTheHostWritesTheFrame : Prop :=
  ∀ s t : State, step s = .next t →
    t.platform = s.platform ∧
    ((∀ a v rest, s.turns ≠ .storeByte a v :: rest) → (∀ a v rest, s.turns ≠ .storeHalf a v :: rest) →
      (∀ a v rest, s.turns ≠ .storeWord a v :: rest) → t.mem = s.mem)

/-- 20_memory R46, R50, 00_scope R8: a machine whose frame base is not a multiple of 4, whose buffer is not 476 bytes, or
that has no request port, is refused whatever it would do next (log 5: that it is at every step, the order in which the
three are looked at, and that a machine without ports is refused). -/
def Obligations.UnadmittedFramesAreRefused : Prop :=
  ∀ s : State,
    (s.platform.bufferBytes = 476 → s.platform.frameBase % 4 ≠ 0 → step s = .refused .misalignedFrame) ∧
    (s.platform.bufferBytes = 476 → s.platform.frameBase % 4 = 0 → s.platform.ports = 0 →
      step s = .refused .noPorts) ∧
    (s.platform.bufferBytes ≠ 476 → step s = .refused .wrongBufferSize)

/-- 70_reset R150: a reset of the block discards the requests in flight and leaves no response at the port; the frame
buffer is untouched (R151). That the host's position, the responses delivered and the turns to come stay is the model's
reading (log 20). -/
def Obligations.ResetDiscardsRequests : Prop :=
  ∀ (s : State) (rest : List Turn), platformRefusal s.platform = none → s.turns = .reset :: rest →
    step s = .next { s with turns := rest, inFlight := [], resp := none, reads := [] }

/-- 10_state R38: no request in flight and no response at the port after reset, and every byte of the frame is what the
model leaves open (log 2). -/
def Obligations.ResetState : Prop :=
  State.reset.inFlight = [] ∧ State.reset.resp = none ∧
  ∀ a, frameByte State.reset a = Config.unwrittenByte a

/-- A step completes whenever the machine is admitted and its next turn is neither a request on a missing port nor a
store outside the frame: no request and no data stop it (60_exceptions R136). Some of these steps answer nothing: with no
turn left and nothing in flight, and on a turn of a port with nothing in flight, which only the model gives (log 13). -/
def Obligations.AdmittedStepsComplete : Prop :=
  ∀ s : State, platformRefusal s.platform = none →
    (∀ port w rest, s.turns = .request port w :: rest → port < s.platform.ports) →
    (∀ a v rest, s.turns = .storeByte a v :: rest →
      s.platform.frameBase ≤ a ∧ a + 1 ≤ s.platform.frameBase + 476) →
    (∀ a v rest, s.turns = .storeHalf a v :: rest →
      s.platform.frameBase ≤ a ∧ a + 2 ≤ s.platform.frameBase + 476) →
    (∀ a v rest, s.turns = .storeWord a v :: rest →
      s.platform.frameBase ≤ a ∧ a + 4 ≤ s.platform.frameBase + 476) →
    Completes s

/-! ### The invariant -/

/-- From every state that meets the invariant (`Sys2Proof.Inv`), a step gives a state that meets it: the storage keeps
its canonical form inside the frame (20_memory R40), there is a port and ports named exist (00_scope R8,
60_exceptions R142), every response is proper
(30_encoding R68, 60_exceptions R133), frame reads stay in the frame (20_memory R41), and no request has two responses
(10_state R24). -/
def Obligations.EveryStepKeepsInv : Prop :=
  ∀ s t : State, Inv s → step s = .next t → Inv t

/-- The invariant holds at reset. The empty lists and the position 0 of `State.reset` that it leans on are the model's
choice (log 12), and so are its platform (log 4) and its storage without a listed byte (log 2, log 3). -/
def Obligations.InvAtReset : Prop := Inv State.reset
end

