-- ==== Sys2Proof/Laws/Decode.lean ====
section
/-! SUPPORT. The fields of a request word: what the encoder packs, the decoder unpacks. -/

namespace Sys2Proof

@[simp] theorem opField_packRequest (f i : BitVec 12) (r : BitVec 3) (o : BitVec 5) :
    opField (packRequest f i r o) = o := by
  simp only [opField, packRequest]
  refine BitVec.eq_of_getLsbD_eq fun j hj => ?_
  simp only [BitVec.getLsbD_extractLsb', BitVec.getLsbD_append]
  simp [hj]

@[simp] theorem rsvField_packRequest (f i : BitVec 12) (r : BitVec 3) (o : BitVec 5) :
    rsvField (packRequest f i r o) = r := by
  simp only [rsvField, packRequest]
  refine BitVec.eq_of_getLsbD_eq fun j hj => ?_
  simp only [BitVec.getLsbD_extractLsb', BitVec.getLsbD_append]
  simp [hj]

@[simp] theorem idxOperand_packRequest (f i : BitVec 12) (r : BitVec 3) (o : BitVec 5) :
    idxOperand (packRequest f i r o) = i.toInt := by
  simp only [idxOperand, packRequest]
  congr 1
  refine BitVec.eq_of_getLsbD_eq fun j hj => ?_
  simp only [BitVec.getLsbD_extractLsb', BitVec.getLsbD_append]
  have h1 : ¬ 8 + j < 5 := by omega
  have h2 : ¬ 8 + j - 5 < 3 := by omega
  have h3 : 8 + j - 5 - 3 = j := by omega
  simp [hj, h1, h2, h3]

@[simp] theorem fembOperand_packRequest (f i : BitVec 12) (r : BitVec 3) (o : BitVec 5) :
    fembOperand (packRequest f i r o) = f.toInt := by
  simp only [fembOperand, packRequest]
  congr 1
  refine BitVec.eq_of_getLsbD_eq fun j hj => ?_
  simp only [BitVec.getLsbD_extractLsb', BitVec.getLsbD_append]
  have h1 : ¬ 20 + j < 5 := by omega
  have h2 : ¬ 20 + j - 5 < 3 := by omega
  have h3 : ¬ 20 + j - 5 - 3 < 12 := by omega
  have h4 : 20 + j - 5 - 3 - 12 = j := by omega
  simp [hj, h1, h2, h3, h4]

/-- An operand that fits its 12 bits is read back from them (30_encoding R62, R63). -/
theorem toInt_ofInt_of_fits {i : Int} (h : fitsOperand i = true) : (BitVec.ofInt 12 i).toInt = i := by
  simp only [fitsOperand, Bool.and_eq_true, decide_eq_true_eq] at h
  rw [BitVec.toInt_ofInt]
  exact Int.bmod_eq_of_le (by norm_num; omega) (by norm_num; omega)

/-- An operand a request word holds fits its 12 bits. -/
theorem fitsOperand_toInt (x : BitVec 12) : fitsOperand x.toInt = true := by
  have h1 := BitVec.le_toInt x
  have h2 := @BitVec.toInt_lt 12 x
  simp only [fitsOperand, Bool.and_eq_true, decide_eq_true_eq]
  norm_num at h1 h2
  omega

end Sys2Proof
end

