-- ==== Sys2Proof/Laws/State.lean ====
section
/-! SUPPORT. One lemma per field of State for each named update, so that no proof unfolds a record update; and what a
frame word depends on. -/

namespace Sys2Proof.Machine

@[simp] theorem recordRead_mem (k : Nat) (s : State) : (recordRead k s).mem = s.mem := rfl
@[simp] theorem recordRead_platform (k : Nat) (s : State) : (recordRead k s).platform = s.platform := rfl
@[simp] theorem recordRead_turns (k : Nat) (s : State) : (recordRead k s).turns = s.turns := rfl
@[simp] theorem recordRead_position (k : Nat) (s : State) : (recordRead k s).position = s.position := rfl
@[simp] theorem recordRead_inFlight (k : Nat) (s : State) : (recordRead k s).inFlight = s.inFlight := rfl
@[simp] theorem recordRead_resp (k : Nat) (s : State) : (recordRead k s).resp = s.resp := rfl
@[simp] theorem recordRead_reads (k : Nat) (s : State) : (recordRead k s).reads = s.reads ++ [k] := rfl
@[simp] theorem recordRead_responses (k : Nat) (s : State) : (recordRead k s).responses = s.responses := rfl
@[simp] theorem recordRead_draws (k : Nat) (s : State) : (recordRead k s).draws = s.draws := rfl

@[simp] theorem respond_mem (st : Status) (r : Result) (s : State) : (respond st r s).mem = s.mem := rfl
@[simp] theorem respond_platform (st : Status) (r : Result) (s : State) :
    (respond st r s).platform = s.platform := rfl
@[simp] theorem respond_turns (st : Status) (r : Result) (s : State) : (respond st r s).turns = s.turns := rfl
@[simp] theorem respond_position (st : Status) (r : Result) (s : State) :
    (respond st r s).position = s.position := rfl
@[simp] theorem respond_inFlight (st : Status) (r : Result) (s : State) :
    (respond st r s).inFlight = s.inFlight := rfl
@[simp] theorem respond_resp (st : Status) (r : Result) (s : State) :
    (respond st r s).resp = some { status := st, result := r } := rfl
@[simp] theorem respond_reads (st : Status) (r : Result) (s : State) : (respond st r s).reads = s.reads := rfl
@[simp] theorem respond_responses (st : Status) (r : Result) (s : State) :
    (respond st r s).responses = s.responses := rfl
@[simp] theorem respond_draws (st : Status) (r : Result) (s : State) : (respond st r s).draws = s.draws := rfl

@[simp] theorem answeredWith_mem (s : State) (ks : List Nat) (r : Response) : (answeredWith s ks r).mem = s.mem := rfl
@[simp] theorem answeredWith_platform (s : State) (ks : List Nat) (r : Response) :
    (answeredWith s ks r).platform = s.platform := rfl
@[simp] theorem answeredWith_turns (s : State) (ks : List Nat) (r : Response) :
    (answeredWith s ks r).turns = s.turns := rfl
@[simp] theorem answeredWith_position (s : State) (ks : List Nat) (r : Response) :
    (answeredWith s ks r).position = s.position := rfl
@[simp] theorem answeredWith_inFlight (s : State) (ks : List Nat) (r : Response) :
    (answeredWith s ks r).inFlight = s.inFlight := rfl
@[simp] theorem answeredWith_resp (s : State) (ks : List Nat) (r : Response) :
    (answeredWith s ks r).resp = some r := rfl
@[simp] theorem answeredWith_reads (s : State) (ks : List Nat) (r : Response) :
    (answeredWith s ks r).reads = s.reads ++ ks := rfl
@[simp] theorem answeredWith_responses (s : State) (ks : List Nat) (r : Response) :
    (answeredWith s ks r).responses = s.responses := rfl
@[simp] theorem answeredWith_draws (s : State) (ks : List Nat) (r : Response) :
    (answeredWith s ks r).draws = s.draws := rfl

@[simp] theorem endTurn_mem (s : State) : (endTurn s).mem = s.mem := rfl
@[simp] theorem endTurn_platform (s : State) : (endTurn s).platform = s.platform := rfl
@[simp] theorem endTurn_turns (s : State) : (endTurn s).turns = s.turns.tail := rfl
@[simp] theorem endTurn_position (s : State) : (endTurn s).position = s.position := rfl
@[simp] theorem endTurn_inFlight (s : State) : (endTurn s).inFlight = s.inFlight := rfl
@[simp] theorem endTurn_resp (s : State) : (endTurn s).resp = none := rfl
@[simp] theorem endTurn_reads (s : State) : (endTurn s).reads = [] := rfl
@[simp] theorem endTurn_responses (s : State) : (endTurn s).responses = s.responses := rfl
@[simp] theorem endTurn_draws (s : State) : (endTurn s).draws = s.draws := rfl

@[simp] theorem resetBlock_mem (s : State) : (resetBlock s).mem = s.mem := rfl
@[simp] theorem resetBlock_platform (s : State) : (resetBlock s).platform = s.platform := rfl
@[simp] theorem resetBlock_turns (s : State) : (resetBlock s).turns = s.turns := rfl
@[simp] theorem resetBlock_position (s : State) : (resetBlock s).position = s.position := rfl
@[simp] theorem resetBlock_inFlight (s : State) : (resetBlock s).inFlight = [] := rfl
@[simp] theorem resetBlock_resp (s : State) : (resetBlock s).resp = s.resp := rfl
@[simp] theorem resetBlock_reads (s : State) : (resetBlock s).reads = s.reads := rfl
@[simp] theorem resetBlock_responses (s : State) : (resetBlock s).responses = s.responses := rfl
@[simp] theorem resetBlock_draws (s : State) : (resetBlock s).draws = s.draws := rfl

@[simp] theorem placeRequest_mem (w : Word) (s : State) : (placeRequest w s).mem = s.mem := rfl
@[simp] theorem placeRequest_platform (w : Word) (s : State) : (placeRequest w s).platform = s.platform := rfl
@[simp] theorem placeRequest_turns (w : Word) (s : State) : (placeRequest w s).turns = .answer 0 :: s.turns := rfl
@[simp] theorem placeRequest_position (w : Word) (s : State) : (placeRequest w s).position = s.position := rfl
@[simp] theorem placeRequest_inFlight (w : Word) (s : State) :
    (placeRequest w s).inFlight = { port := 0, word := w, overlapped := false } :: s.inFlight := rfl
@[simp] theorem placeRequest_resp (w : Word) (s : State) : (placeRequest w s).resp = s.resp := rfl
@[simp] theorem placeRequest_reads (w : Word) (s : State) : (placeRequest w s).reads = s.reads := rfl
@[simp] theorem placeRequest_responses (w : Word) (s : State) : (placeRequest w s).responses = s.responses := rfl
@[simp] theorem placeRequest_draws (w : Word) (s : State) : (placeRequest w s).draws = s.draws := rfl

/-- A byte of the frame depends on the storage alone. -/
theorem frameByte_congr {s t : State} (h : t.mem = s.mem) (a : Nat) : frameByte t a = frameByte s a := by
  unfold frameByte; rw [h]

/-- A frame word depends on the storage and the platform alone (20_memory R44). -/
theorem frameWord_congr {s t : State} (hm : t.mem = s.mem) (hp : t.platform = s.platform) (k : Nat) :
    frameWord t k = frameWord s k := by
  unfold frameWord frameByte; rw [hm, hp]

@[simp] theorem frameWord_recordRead (k j : Nat) (s : State) : frameWord (recordRead j s) k = frameWord s k := rfl
@[simp] theorem frameWord_respond (k : Nat) (st : Status) (r : Result) (s : State) :
    frameWord (respond st r s) k = frameWord s k := rfl
@[simp] theorem frameWord_answeredWith (k : Nat) (s : State) (ks : List Nat) (r : Response) :
    frameWord (answeredWith s ks r) k = frameWord s k := rfl
@[simp] theorem frameWord_endTurn (k : Nat) (s : State) : frameWord (endTurn s) k = frameWord s k := rfl
@[simp] theorem frameWord_resetBlock (k : Nat) (s : State) : frameWord (resetBlock s) k = frameWord s k := rfl

/-- The frame depends on the storage and the platform alone. -/
theorem frameOf_congr {s t : State} (hm : t.mem = s.mem) (hp : t.platform = s.platform) : frameOf t = frameOf s :=
  funext fun k => frameWord_congr hm hp k

/-- Responding after the reads `ks` is the whole effect of answering (00_scope R12). -/
theorem respond_recordRead (st : Status) (r : Result) (k : Nat) (s : State) :
    respond st r (recordRead k s) = answeredWith s [k] { status := st, result := r } := rfl

/-- The same after two reads. -/
theorem respond_recordRead_twice (st : Status) (r : Result) (j k : Nat) (s : State) :
    respond st r (recordRead k (recordRead j s)) = answeredWith s [j, k] { status := st, result := r } := by
  simp [respond, recordRead, answeredWith]

/-- The same after no read. -/
theorem respond_eq_answeredWith (st : Status) (r : Result) (s : State) :
    respond st r s = answeredWith s [] { status := st, result := r } := by
  simp [respond, answeredWith]

end Sys2Proof.Machine
end

