-- ==== Sys2Proof/Laws/Ops.lean ====
section
/-! SUPPORT. What each shared operation can do, said once: `frameRead`, `readField`, `sampleExtract`, `readSample`. -/

namespace Sys2Proof.Machine

/-- `FrameRead(k)` in range gives the word and records the read (20_memory R41). -/
theorem frameRead_of_lt {k : Nat} (h : k < 119) (s : State) :
    frameRead k s = some (frameWord s k, recordRead k s) := by
  simp [frameRead, h]

/-- Out of range it performs no read. -/
theorem frameRead_of_ge {k : Nat} (h : 119 ≤ k) (s : State) : frameRead k s = none := by
  simp [frameRead]; omega

/-- Everything a field operation does (41_field_access, opening). -/
theorem readField_eq {k : Nat} (h : k < 119) (lo width : Nat) (s : State) :
    readField k lo width s =
      .next (answeredWith s [k] { status := .ok, result := (fieldOf (frameWord s k) lo width).setWidth 64 }) := by
  rw [readField, frameRead_of_lt h]; rfl

/-- Everything the datapath of `SampleExtract` does on an index in range: the internal checks never fire
(40_sample_access R88), and the second word is read exactly when `bit_position > 18` (R87). -/
theorem extractInRange_eq {n : Nat} (h : n ≤ 255) (s : State) :
    extractInRange n s =
      if 18 < 14 * n % 32 then
        .sample ((frameWord s (4 + 14 * n / 32) >>> (14 * n % 32) |||
            frameWord s (5 + 14 * n / 32) <<< (32 - 14 * n % 32)).setWidth 14)
          (recordRead (5 + 14 * n / 32) (recordRead (4 + 14 * n / 32) s))
      else
        .sample ((frameWord s (4 + 14 * n / 32) >>> (14 * n % 32)).setWidth 14)
          (recordRead (4 + 14 * n / 32) s) := by
  have h0 : ¬ 111 < 14 * n / 32 := by omega
  have hr := frameRead_of_lt (k := 4 + 14 * n / 32) (by omega) s
  simp only [extractInRange, h0, if_false, Config.headerWords, hr]
  by_cases hs : 18 < 14 * n % 32
  · have h1 : ¬ 111 < 14 * n / 32 + 1 := by omega
    have hm : min 14 (32 - 14 * n % 32) = 32 - 14 * n % 32 := by omega
    have hlt : 32 - 14 * n % 32 < 14 := by omega
    have e : 4 + 14 * n / 32 + 1 = 5 + 14 * n / 32 := by omega
    simp only [hm, hlt, h1, hs, if_true, if_false, e, frameRead_of_lt (k := 5 + 14 * n / 32) (by omega),
      frameWord_recordRead]
  · have hlt : ¬ min 14 (32 - 14 * n % 32) < 14 := by omega
    simp only [hlt, hs, if_false]

/-- Everything `SampleExtract` can do (40_sample_access R80): out of range, or a sample after one or two reads of
payload words. -/
theorem sampleExtract_cases (n : Int) (s : State) :
    (sampleExtract n s = .outOfRange ∧ (n < 0 ∨ 255 < n)) ∨
    (0 ≤ n ∧ n ≤ 255 ∧ ∃ v ks, sampleExtract n s = .sample v { s with reads := s.reads ++ ks } ∧
      ks.length ≤ 2 ∧ ∀ k ∈ ks, 4 ≤ k ∧ k ≤ 115) := by
  by_cases h : n < 0 ∨ 255 < n
  · exact .inl ⟨by simp [sampleExtract, h], h⟩
  · refine .inr ⟨by omega, by omega, ?_⟩
    have hn : n.toNat ≤ 255 := by omega
    rw [sampleExtract, if_neg h, extractInRange_eq hn]
    split
    · refine ⟨_, [4 + 14 * n.toNat / 32, 5 + 14 * n.toNat / 32], by rw [recordRead, recordRead, List.append_assoc]; rfl, by simp, by simp; omega⟩
    · refine ⟨_, [4 + 14 * n.toNat / 32], rfl, by simp, by simp; omega⟩

/-- Everything a sample-family operation can do: an out-of-range response and no read, or a sample. -/
theorem readSample_cases (n : Int) (s : State) :
    (readSample n s = .next (answeredWith s [] (errorResponse .indexOutOfRange)) ∧ (n < 0 ∨ 255 < n)) ∨
    (0 ≤ n ∧ n ≤ 255 ∧ ∃ (v : Sample) (ks : List Nat),
      readSample n s = .next (answeredWith s ks { status := .ok, result := v.setWidth 64 }) ∧
      ks.length ≤ 2 ∧ ∀ k ∈ ks, 4 ≤ k ∧ k ≤ 115) := by
  rcases sampleExtract_cases n s with ⟨h, hn⟩ | ⟨h0, h1, v, ks, h, hl, hk⟩
  · exact .inl ⟨by rw [readSample, h]; simp [raiseError, respond, answeredWith, errorResponse], hn⟩
  · exact .inr ⟨h0, h1, v, ks, by rw [readSample, h]; rfl, hl, hk⟩

/-- Everything raising an error does (60_exceptions R135). -/
theorem raiseError_eq (st : Status) (s : State) :
    raiseError st s = .next (answeredWith s [] (errorResponse st)) := by
  simp [raiseError, respond, answeredWith, errorResponse]

end Sys2Proof.Machine
end

