-- ==== Sys2Proof/Laws/Interface.lean ====
section
/-! SUPPORT. What answering a request, taking one to answer, delivering its response, and the turns of the environment
can do, each said once; and from these what a step can do. -/

namespace Sys2Proof.Machine

/-- The machines the spec admits (20_memory R46, R50, 00_scope R8). -/
theorem platformRefusal_eq_none {p : Platform} :
    platformRefusal p = none ↔ p.bufferBytes = 476 ∧ p.frameBase % 4 = 0 ∧ 1 ≤ p.ports := by
  simp only [platformRefusal, Config.frameBytes]
  split_ifs <;> simp <;> omega

/-- An error's response is proper. -/
theorem properResponse_error {st : Status} (h : st ≠ .internalFault) : properResponse (errorResponse st) :=
  ⟨h, fun _ => rfl⟩

/-- An OK response is proper. -/
theorem properResponse_ok (v : Result) : properResponse { status := .ok, result := v } :=
  ⟨by simp, fun h => absurd rfl h⟩

/-- Everything a sample-family operation's next state can be. -/
theorem readSample_next {n : Int} {s t : State} (h : readSample n s = .next t) :
    ∃ ks r, t = answeredWith s ks r ∧ properResponse r ∧ ∀ k ∈ ks, k < 119 := by
  rcases readSample_cases n s with ⟨h', -⟩ | ⟨-, -, v, ks, h', -, hk⟩ <;> rw [h'] at h <;>
    injection h with h <;> subst h
  · exact ⟨_, _, rfl, properResponse_error (by simp), by simp⟩
  · exact ⟨_, _, rfl, properResponse_ok _, fun k hk' => by have := hk k hk'; omega⟩

/-- Everything a field operation's next state can be. -/
theorem readField_next {k lo width : Nat} {s t : State} (h : readField k lo width s = .next t) :
    ∃ ks r, t = answeredWith s ks r ∧ properResponse r ∧ ∀ j ∈ ks, j < 119 := by
  by_cases hk : k < 119
  · rw [readField_eq hk] at h
    injection h with h
    exact ⟨_, _, h.symm, properResponse_ok _, by simp [hk]⟩
  · rw [readField, frameRead_of_ge (by omega)] at h
    simp at h

/-- Everything raising an error's next state can be. -/
theorem raiseError_next {st : Status} {s t : State} (hst : st ≠ .internalFault) (h : raiseError st s = .next t) :
    ∃ ks r, t = answeredWith s ks r ∧ properResponse r ∧ ∀ j ∈ ks, j < 119 := by
  rw [raiseError_eq] at h
  injection h with h
  exact ⟨_, _, h.symm, properResponse_error hst, by simp⟩

/-- Everything answering a request can do to the state, if it answers a next state: a proper response and frame reads
inside the frame (60_exceptions R135, 20_memory R41). -/
theorem exec_next {i : Instr} {s t : State} (h : exec i s = .next t) :
    ∃ ks r, t = answeredWith s ks r ∧ properResponse r ∧ ∀ k ∈ ks, k < 119 := by
  cases i with
  | getAdc i => exact readSample_next h
  | getU f i => exact readSample_next h
  | getV f i => exact readSample_next h
  | getX f i => exact readSample_next h
  | timestamp =>
    simp only [exec, execTimestamp, frameRead_of_lt (show 2 < 119 by decide), frameRead_of_lt (show 3 < 119 by decide),
      returnValue] at h
    injection h with h
    rw [respond_recordRead_twice] at h
    exact ⟨_, _, h.symm, properResponse_ok _, by simp⟩
  | crate => exact readField_next (k := 0) (lo := 0) (width := 8) h
  | frameVersion => exact readField_next (k := 0) (lo := 8) (width := 4) h
  | slot => exact readField_next (k := 0) (lo := 12) (width := 3) h
  | fiber => exact readField_next (k := 0) (lo := 15) (width := 1) h
  | fembValid => exact readField_next (k := 0) (lo := 16) (width := 2) h
  | statusCode1 => exact readField_next (k := 0) (lo := 18) (width := 14) h
  | statusCode2 => exact readField_next (k := 1) (lo := 0) (width := 32) h
  | timestamp1 => exact readField_next (k := 2) (lo := 0) (width := 32) h
  | timestamp2 => exact readField_next (k := 3) (lo := 0) (width := 32) h
  | crc20 => exact readField_next (k := 116) (lo := 0) (width := 20) h
  | flexWord12 => exact readField_next (k := 116) (lo := 20) (width := 12) h
  | eof => exact readField_next (k := 117) (lo := 0) (width := 8) h
  | flexWord24 => exact readField_next (k := 118) (lo := 0) (width := 24) h
  | reservedOp12 low => exact raiseError_next (by simp) h
  | reservedOp14 low => exact raiseError_next (by simp) h
  | reservedOp18 low => exact raiseError_next (by simp) h
  | reservedRsv rsv op => exact raiseError_next (by simp) h

/-- What `takeOldest` gives: the first request of the port, and the others in their order (10_state R24). -/
theorem takeOldest_some {port : Nat} {l ps : List Pending} {p : Pending} (h : takeOldest port l = some (p, ps)) :
    ∃ before after, l = before ++ p :: after ∧ ps = before ++ after ∧ p.port = port ∧ ∀ q ∈ before, q.port ≠ port := by
  induction l generalizing p ps with
  | nil => simp [takeOldest] at h
  | cons q l ih =>
    rw [takeOldest] at h
    split at h
    · next hq =>
      simp only [Option.some.injEq, Prod.mk.injEq] at h
      obtain ⟨rfl, rfl⟩ := h
      exact ⟨[], l, rfl, rfl, hq, by simp⟩
    · next hq =>
      split at h
      · simp at h
      · next q' qs heq =>
        simp only [Option.some.injEq, Prod.mk.injEq] at h
        obtain ⟨rfl, rfl⟩ := h
        obtain ⟨b, a, rfl, rfl, hp, hb⟩ := ih heq
        refine ⟨q :: b, a, rfl, rfl, hp, fun r hr => ?_⟩
        rcases List.mem_cons.1 hr with rfl | hr
        · exact hq
        · exact hb r hr

/-- `takeOldest` gives the request of a port that no earlier request in flight is on (10_state R24). -/
theorem takeOldest_append {before after : List Pending} {p : Pending} (h : ∀ q ∈ before, q.port ≠ p.port) :
    takeOldest p.port (before ++ p :: after) = some (p, before ++ after) := by
  induction before with
  | nil => simp [takeOldest]
  | cons q l ih =>
    obtain ⟨hq, hl⟩ := List.forall_mem_cons.1 h
    simp [takeOldest, hq, ih hl]

/-- `takeOldest` gives nothing exactly where no request of the port is in flight. -/
theorem takeOldest_none {port : Nat} {l : List Pending} : takeOldest port l = none ↔ ∀ q ∈ l, q.port ≠ port := by
  induction l with
  | nil => simp [takeOldest]
  | cons q l ih =>
    rw [takeOldest]
    split
    · next hq => simp [hq]
    · next hq =>
      cases hl : takeOldest port l with
      | none => simp only [true_iff, List.forall_mem_cons]; exact ⟨hq, ih.1 hl⟩
      | some x =>
        simp only [reduceCtorEq, List.forall_mem_cons, false_iff, not_and]
        intro _ hc
        rw [ih.2 hc] at hl
        simp at hl

/-- Everything `fetch` can give. -/
theorem fetch_some {s t : State} {p : Pending} (h : fetch s = some (p, t)) :
    ∃ before after, s.inFlight = before ++ p :: after ∧
      t = { s with turns := s.turns.tail, inFlight := before ++ after, resp := none, reads := [] } ∧
      ((s.turns = [] ∧ before = []) ∨
        (∃ rest, s.turns = .answer p.port :: rest ∧ ∀ q ∈ before, q.port ≠ p.port)) := by
  unfold fetch at h
  split at h
  · next ht =>
    split at h
    · simp at h
    · next q qs hq =>
      simp only [Option.some.injEq, Prod.mk.injEq] at h
      obtain ⟨rfl, rfl⟩ := h
      exact ⟨[], qs, hq, by simp [ht], .inl ⟨ht, rfl⟩⟩
  · next port rest ht =>
    split at h
    · simp at h
    · next q qs hq =>
      simp only [Option.some.injEq, Prod.mk.injEq] at h
      obtain ⟨rfl, rfl⟩ := h
      obtain ⟨b, a, h1, h2, h3, h4⟩ := takeOldest_some hq
      refine ⟨b, a, h1, by simp [ht, h2], .inr ⟨rest, by rw [ht, h3], fun r hr => by rw [h3]; exact h4 r hr⟩⟩
  · simp at h

/-- `fetch` takes the oldest request of the port whose turn it is to be answered (10_state R24), and with no turn left
the oldest of all (log 13). -/
theorem fetch_of_oldest {s : State} {before after : List Pending} {p : Pending}
    (hi : s.inFlight = before ++ p :: after)
    (ht : (∃ rest, s.turns = .answer p.port :: rest ∧ ∀ q ∈ before, q.port ≠ p.port) ∨ (s.turns = [] ∧ before = [])) :
    fetch s =
      some (p, { s with turns := s.turns.tail, inFlight := before ++ after, resp := none, reads := [] }) := by
  rcases ht with ⟨rest, ht, hb⟩ | ⟨ht, rfl⟩
  · simp only [fetch, ht, hi, takeOldest_append hb, List.tail_cons]
  · simp [fetch, ht, hi]

/-- What delivering a response does to the state (10_state R24, 70_reset R153). -/
theorem deliver_answeredWith (p : Pending) (s : State) (ks : List Nat) (r : Response) :
    deliver p (answeredWith s ks r) =
      { s with
        reads := s.reads ++ ks
        resp := some (deliveredResponse p s.draws r)
        responses := s.responses ++ [(p.port, deliveredResponse p s.draws r)]
        draws := if p.overlapped ∧ r.status = .ok then s.draws + 1 else s.draws } := rfl

/-- With the host's duty kept, the response leaves the block as it is (20_memory R52). -/
@[simp] theorem deliveredResponse_of_not_overlapped {p : Pending} (h : p.overlapped = false) (n : Nat) (r : Response) :
    deliveredResponse p n r = r := by
  simp [deliveredResponse, h]

/-- Whether or not the host wrote the frame meanwhile, the status is unaffected (70_reset R153). -/
@[simp] theorem deliveredResponse_status (p : Pending) (n : Nat) (r : Response) :
    (deliveredResponse p n r).status = r.status := by
  unfold deliveredResponse; split <;> rfl

/-- A delivered response is proper where the request's meaning gave a proper one. -/
theorem deliveredResponse_proper {r : Response} (h : properResponse r) (p : Pending) (n : Nat) :
    properResponse (deliveredResponse p n r) := by
  refine ⟨by simpa using h.1, fun hs => ?_⟩
  rw [deliveredResponse_status] at hs
  rw [deliveredResponse, if_neg (fun hc => hs hc.2)]
  exact h.2 hs

/-- Everything a host store can do. -/
theorem hostStore_next {a : Nat} {bs : List Byte} {s t : State} (h : hostStore a bs s = .next t) :
    s.platform.frameBase ≤ a ∧ a + bs.length ≤ s.platform.frameBase + 476 ∧
      t = { s with mem := s.mem.writeBytes a bs, inFlight := s.inFlight.map markOverlapped } := by
  unfold hostStore at h
  split at h
  · next hc => injection h with h; exact ⟨hc.1, hc.2, h.symm⟩
  · simp at h

/-- A host store that stays inside the frame buffer completes (20_memory R45, R53). -/
theorem hostStore_of_inside {a : Nat} {bs : List Byte} {s : State} (h₁ : s.platform.frameBase ≤ a)
    (h₂ : a + bs.length ≤ s.platform.frameBase + 476) :
    hostStore a bs s =
      .next { s with mem := s.mem.writeBytes a bs, inFlight := s.inFlight.map markOverlapped } :=
  if_pos ⟨h₁, h₂⟩

/-- A host store with a byte outside the frame buffer faults (20_memory R40; log 14). -/
theorem hostStore_of_outside {a : Nat} {bs : List Byte} {s : State}
    (h : a < s.platform.frameBase ∨ s.platform.frameBase + 476 < a + bs.length) :
    hostStore a bs s = .fault .outsideFrame := by
  refine if_neg fun hc => ?_
  have : a + bs.length ≤ s.platform.frameBase + 476 := hc.2
  omega

/-- Everything presenting a request can do. -/
theorem presentRequest_next {port : Nat} {w : Word} {s t : State} (h : presentRequest port w s = .next t) :
    port < s.platform.ports ∧
      t = { s with
        inFlight := s.inFlight ++ [{ port := port, word := w, overlapped := false }], position := s.position + 1 } := by
  unfold presentRequest at h
  split at h
  · next hc => injection h with h; exact ⟨hc, h.symm⟩
  · simp at h

/-- Everything a turn that answers no request can do. -/
theorem runTurn_next {s t : State} (h : runTurn s = .next t) :
    ((s.turns = [] ∨ ∃ port rest, s.turns = .answer port :: rest) ∧ t = endTurn s) ∨
    (∃ port w rest, s.turns = .request port w :: rest ∧ port < s.platform.ports ∧
      t = { endTurn s with
        inFlight := s.inFlight ++ [{ port := port, word := w, overlapped := false }], position := s.position + 1 }) ∨
    (∃ a bs rest, ((∃ v, bs = [v] ∧ s.turns = .storeByte a v :: rest) ∨
        (∃ v, bs = bytesOfHalf s.platform.byteOrder v ∧ s.turns = .storeHalf a v :: rest) ∨
        (∃ v, bs = bytesOfWord s.platform.byteOrder v ∧ s.turns = .storeWord a v :: rest)) ∧
      s.platform.frameBase ≤ a ∧ a + bs.length ≤ s.platform.frameBase + 476 ∧
      t = { endTurn s with mem := s.mem.writeBytes a bs, inFlight := s.inFlight.map markOverlapped }) ∨
    (∃ rest, s.turns = .reset :: rest ∧ t = { endTurn s with inFlight := [] }) := by
  unfold runTurn at h
  split at h
  · next ht => injection h with h; exact .inl ⟨.inl ht, h.symm⟩
  · next port rest ht => injection h with h; exact .inl ⟨.inr ⟨_, _, ht⟩, h.symm⟩
  · next port w rest ht =>
    obtain ⟨hp, rfl⟩ := presentRequest_next h
    exact .inr (.inl ⟨_, _, _, ht, hp, rfl⟩)
  · next a v rest ht =>
    obtain ⟨h1, h2, rfl⟩ := hostStore_next h
    exact .inr (.inr (.inl ⟨a, _, rest, .inl ⟨v, rfl, ht⟩, h1, h2, rfl⟩))
  · next a v rest ht =>
    obtain ⟨h1, h2, rfl⟩ := hostStore_next h
    exact .inr (.inr (.inl ⟨a, _, rest, .inr (.inl ⟨v, rfl, ht⟩), h1, h2, rfl⟩))
  · next a v rest ht =>
    obtain ⟨h1, h2, rfl⟩ := hostStore_next h
    exact .inr (.inr (.inl ⟨a, _, rest, .inr (.inr ⟨v, rfl, ht⟩), h1, h2, rfl⟩))
  · next rest ht => injection h with h; exact .inr (.inr (.inr ⟨rest, ht, h.symm⟩))

/-- Everything a step can do, if it answers a next state: the block answers the request `fetch` takes, or a turn of the
environment happens. -/
theorem step_next {s t : State} (h : step s = .next t) :
    platformRefusal s.platform = none ∧
    ((∃ p u ks r, fetch s = some (p, u) ∧ exec (decode p.word) u = .next (answeredWith u ks r) ∧
        properResponse r ∧ (∀ k ∈ ks, k < 119) ∧ t = deliver p (answeredWith u ks r)) ∨
      (fetch s = none ∧ runTurn s = .next t)) := by
  unfold step at h
  split at h
  · simp at h
  · next hp =>
    refine ⟨hp, ?_⟩
    split at h
    · next p u hf =>
      cases he : exec (decode p.word) u with
      | next v =>
        obtain ⟨ks, r, rfl, hr, hk⟩ := exec_next he
        rw [he] at h
        simp only [deliverOutcome] at h
        injection h with h
        exact .inl ⟨p, u, ks, r, hf, he, hr, hk, h.symm⟩
      | fault f => rw [he] at h; simp [deliverOutcome] at h
      | refused f => rw [he] at h; simp [deliverOutcome] at h
    · next hf => exact .inr ⟨hf, h⟩

end Sys2Proof.Machine
end

