-- ==== Sys2Proof/Laws/PerInstr.lean ====
section
/-! SUPPORT. What the encoder says of every request, one lemma per constructor: the low byte of the encoding is the
`match` of the request's row in spec/opcode_table.json, or is not one of the 18 legal bytes (30_encoding R61, R67). -/

/-- The low byte of a well-formed request's word. -/
def Sys2Proof.Laws.OpcodeByte.Statement (i : Sys2Proof.Instr) : Prop :=
  i.wellFormed = true →
    (∀ m, i.tableMatch = some m → Sys2Proof.encode i &&& 0xFF#32 = m) ∧
    (i.tableMatch = none → 0x11 < (Sys2Proof.encode i &&& 0xFF#32).toNat)

/-- The low byte of a packed word is `rsv` above `op`. -/
theorem Sys2Proof.Laws.OpcodeByte.lowByte_packRequest (f i : BitVec 12) (r : BitVec 3) (o : BitVec 5) :
    Sys2Proof.packRequest f i r o &&& 0xFF#32 = (r ++ o).setWidth 32 := by
  have hm : ∀ j < 32, (0xFF#32).getLsbD j = decide (j < 8) := by decide
  refine BitVec.eq_of_getLsbD_eq fun j hj => ?_
  simp only [Sys2Proof.packRequest, BitVec.getLsbD_and, BitVec.getLsbD_append, BitVec.getLsbD_setWidth, hm j hj]
  by_cases h5 : j < 5
  · simp [h5, hj, show j < 8 by omega]
  · by_cases h8 : j < 8
    · simp [h5, h8, hj, show j - 5 < 3 by omega]
    · simp [h5, h8, BitVec.getLsbD_of_ge r (j - 5) (by omega)]

theorem Sys2Proof.Laws.OpcodeByte.getAdc (i : Int) : Sys2Proof.Laws.OpcodeByte.Statement (.getAdc i) :=
  fun _ => ⟨fun m h => by injection h with h; rw [← h]; exact (Sys2Proof.Laws.OpcodeByte.lowByte_packRequest _ _ _ _).trans (by decide), nofun⟩

theorem Sys2Proof.Laws.OpcodeByte.getU (f i : Int) : Sys2Proof.Laws.OpcodeByte.Statement (.getU f i) :=
  fun _ => ⟨fun m h => by injection h with h; rw [← h]; exact (Sys2Proof.Laws.OpcodeByte.lowByte_packRequest _ _ _ _).trans (by decide), nofun⟩

theorem Sys2Proof.Laws.OpcodeByte.getV (f i : Int) : Sys2Proof.Laws.OpcodeByte.Statement (.getV f i) :=
  fun _ => ⟨fun m h => by injection h with h; rw [← h]; exact (Sys2Proof.Laws.OpcodeByte.lowByte_packRequest _ _ _ _).trans (by decide), nofun⟩

theorem Sys2Proof.Laws.OpcodeByte.getX (f i : Int) : Sys2Proof.Laws.OpcodeByte.Statement (.getX f i) :=
  fun _ => ⟨fun m h => by injection h with h; rw [← h]; exact (Sys2Proof.Laws.OpcodeByte.lowByte_packRequest _ _ _ _).trans (by decide), nofun⟩

theorem Sys2Proof.Laws.OpcodeByte.timestamp : Sys2Proof.Laws.OpcodeByte.Statement .timestamp :=
  fun _ => ⟨fun m h => by cases h; decide, nofun⟩

theorem Sys2Proof.Laws.OpcodeByte.crate : Sys2Proof.Laws.OpcodeByte.Statement .crate :=
  fun _ => ⟨fun m h => by cases h; decide, nofun⟩

theorem Sys2Proof.Laws.OpcodeByte.frameVersion : Sys2Proof.Laws.OpcodeByte.Statement .frameVersion :=
  fun _ => ⟨fun m h => by cases h; decide, nofun⟩

theorem Sys2Proof.Laws.OpcodeByte.slot : Sys2Proof.Laws.OpcodeByte.Statement .slot :=
  fun _ => ⟨fun m h => by cases h; decide, nofun⟩

theorem Sys2Proof.Laws.OpcodeByte.fiber : Sys2Proof.Laws.OpcodeByte.Statement .fiber :=
  fun _ => ⟨fun m h => by cases h; decide, nofun⟩

theorem Sys2Proof.Laws.OpcodeByte.fembValid : Sys2Proof.Laws.OpcodeByte.Statement .fembValid :=
  fun _ => ⟨fun m h => by cases h; decide, nofun⟩

theorem Sys2Proof.Laws.OpcodeByte.statusCode1 : Sys2Proof.Laws.OpcodeByte.Statement .statusCode1 :=
  fun _ => ⟨fun m h => by cases h; decide, nofun⟩

theorem Sys2Proof.Laws.OpcodeByte.statusCode2 : Sys2Proof.Laws.OpcodeByte.Statement .statusCode2 :=
  fun _ => ⟨fun m h => by cases h; decide, nofun⟩

theorem Sys2Proof.Laws.OpcodeByte.timestamp1 : Sys2Proof.Laws.OpcodeByte.Statement .timestamp1 :=
  fun _ => ⟨fun m h => by cases h; decide, nofun⟩

theorem Sys2Proof.Laws.OpcodeByte.timestamp2 : Sys2Proof.Laws.OpcodeByte.Statement .timestamp2 :=
  fun _ => ⟨fun m h => by cases h; decide, nofun⟩

theorem Sys2Proof.Laws.OpcodeByte.crc20 : Sys2Proof.Laws.OpcodeByte.Statement .crc20 :=
  fun _ => ⟨fun m h => by cases h; decide, nofun⟩

theorem Sys2Proof.Laws.OpcodeByte.flexWord12 : Sys2Proof.Laws.OpcodeByte.Statement .flexWord12 :=
  fun _ => ⟨fun m h => by cases h; decide, nofun⟩

theorem Sys2Proof.Laws.OpcodeByte.eof : Sys2Proof.Laws.OpcodeByte.Statement .eof :=
  fun _ => ⟨fun m h => by cases h; decide, nofun⟩

theorem Sys2Proof.Laws.OpcodeByte.flexWord24 : Sys2Proof.Laws.OpcodeByte.Statement .flexWord24 :=
  fun _ => ⟨fun m h => by cases h; decide, nofun⟩

theorem Sys2Proof.Laws.OpcodeByte.reservedOp12 (low : BitVec 1) : Sys2Proof.Laws.OpcodeByte.Statement (.reservedOp12 low) := by
  refine fun _ => ⟨nofun, fun _ => ?_⟩
  rw [Sys2Proof.encode, Sys2Proof.packPlain, Sys2Proof.Laws.OpcodeByte.lowByte_packRequest]
  revert low; decide

theorem Sys2Proof.Laws.OpcodeByte.reservedOp14 (low : BitVec 2) : Sys2Proof.Laws.OpcodeByte.Statement (.reservedOp14 low) := by
  refine fun _ => ⟨nofun, fun _ => ?_⟩
  rw [Sys2Proof.encode, Sys2Proof.packPlain, Sys2Proof.Laws.OpcodeByte.lowByte_packRequest]
  revert low; decide

theorem Sys2Proof.Laws.OpcodeByte.reservedOp18 (low : BitVec 3) : Sys2Proof.Laws.OpcodeByte.Statement (.reservedOp18 low) := by
  refine fun _ => ⟨nofun, fun _ => ?_⟩
  rw [Sys2Proof.encode, Sys2Proof.packPlain, Sys2Proof.Laws.OpcodeByte.lowByte_packRequest]
  revert low; decide

theorem Sys2Proof.Laws.OpcodeByte.reservedRsv (rsv : BitVec 3) (op : BitVec 5) :
    Sys2Proof.Laws.OpcodeByte.Statement (.reservedRsv rsv op) := by
  refine fun h => ⟨nofun, fun _ => ?_⟩
  rw [Sys2Proof.encode, Sys2Proof.Laws.OpcodeByte.lowByte_packRequest]
  revert h; revert rsv op; decide
end

