-- ==== Sys2Proof/Laws/Sample.lean ====
section
/-! SUPPORT. The arithmetic of the bit-packed payload: values packed side by side, and the payload as one number. -/

namespace Sys2Proof.Machine

/-- The straddling residues of R87 are those with `bit_position > 18`. -/
theorem straddles_iff (n : Nat) : straddles n = decide (18 < 14 * n % 32) := by
  have h : n % 16 < 16 := Nat.mod_lt _ (by decide)
  have e : 14 * n % 32 = 14 * (n % 16) % 32 := by omega
  rw [straddles, e]
  generalize n % 16 = r at h
  interval_cases r <;> rfl

/-- Values of `wd` bits packed side by side: the sum fits, and bit `wd*i + j` of it is bit j of value i. -/
theorem pack_sum (wd m : Nat) (f : Fin m → Nat) (hf : ∀ i, f i < 2 ^ wd) :
    (∑ i : Fin m, f i * 2 ^ (wd * (i : Nat))) < 2 ^ (wd * m) ∧
    ∀ (i : Fin m) (j : Nat), j < wd → (∑ i : Fin m, f i * 2 ^ (wd * (i : Nat))).testBit (wd * i + j) = (f i).testBit j := by
  induction m with
  | zero => exact ⟨by simp, fun i => i.elim0⟩
  | succ m ih =>
    obtain ⟨hlt, hbit⟩ := ih (fun i => f i.castSucc) (fun i => hf _)
    have hl := hf (Fin.last m)
    rw [Fin.sum_univ_castSucc]
    simp only [Fin.val_castSucc, Fin.val_last]
    rw [Nat.add_comm, Nat.mul_comm (f (Fin.last m))]
    refine ⟨?_, fun i j hj => ?_⟩
    · have : 2 ^ (wd * m) * f (Fin.last m) + 2 ^ (wd * m) ≤ 2 ^ (wd * m) * 2 ^ wd := by
        rw [← Nat.mul_succ]; exact Nat.mul_le_mul_left _ hl
      rw [show wd * (m + 1) = wd * m + wd by ring, pow_add]
      omega
    · rw [Nat.testBit_two_pow_mul_add _ hlt]
      induction i using Fin.lastCases with
      | last => simp
      | cast i =>
        have : wd * (i : Nat) + j < wd * m := by
          have : wd * ((i : Nat) + 1) ≤ wd * m := Nat.mul_le_mul_left _ i.2
          rw [Nat.mul_succ] at this; omega
        simp [this, hbit i j hj]

/-- Bit b of the number `PB` is payload bit b (20_memory R43, 40_sample_access R85). -/
theorem payloadValue_testBit (F : Frame) (b : Fin 3584) : (payloadValue F).testBit b = payloadBit F b := by
  have := (pack_sum 32 112 (fun p => (payloadWord F p).toNat) (fun p => (payloadWord F p).isLt)).2
    ⟨b / 32, by omega⟩ (b % 32) (by omega)
  simp only [Nat.div_add_mod] at this
  rw [payloadValue, this]; rfl

/-- Bit j of the closed form of sample n is payload bit `14*n + j`. -/
theorem sampleOf_getLsbD (F : Frame) {n j : Nat} (hn : n ≤ 255) (hj : j < 14) :
    (sampleOf F n).getLsbD j = payloadBit F ⟨14 * n + j, by omega⟩ := by
  rw [← payloadValue_testBit]
  rw [sampleOf, BitVec.getLsbD_ofNat, Nat.testBit_div_two_pow, Nat.add_comm j]
  simp [hj]

/-- A payload bit is a bit of a frame word (10_state R30). -/
theorem payloadBit_frameOf (s : State) (b : Fin 3584) :
    payloadBit (frameOf s) b = (frameWord s (4 + b / 32)).getLsbD (b % 32) := rfl

/-- `PB` has 3584 bits (00_scope R7). -/
theorem payloadValue_lt (F : Frame) : payloadValue F < 2 ^ (32 * 112) :=
  (pack_sum 32 112 (fun p => (payloadWord F p).toNat) (fun p => (payloadWord F p).isLt)).1

/-- Every payload is the packing of its own 256 samples (40_sample_access R85). -/
theorem packSamples_sampleOf (F : Frame) : packSamples (fun i => sampleOf F i) = payloadValue F := by
  obtain ⟨hlt, hbit⟩ := pack_sum 14 256 (fun i => (sampleOf F i).toNat) (fun i => (sampleOf F i).isLt)
  refine Nat.eq_of_testBit_eq fun b => ?_
  by_cases hb : b < 3584
  · have h1 := hbit ⟨b / 14, by omega⟩ (b % 14) (by omega)
    simp only [Nat.div_add_mod] at h1
    rw [packSamples, h1, ← BitVec.getLsbD, sampleOf_getLsbD F (by omega : b / 14 ≤ 255) (by omega)]
    simp only [Nat.div_add_mod]
    exact (payloadValue_testBit F ⟨b, hb⟩).symm
  · have key : ∀ n, n ≤ b → 2 ^ n ≤ 2 ^ b := fun n h => Nat.pow_le_pow_right Nat.two_pos h
    have h1 : payloadValue F < 2 ^ b := lt_of_lt_of_le (payloadValue_lt F) (key _ (by omega))
    have h2 : packSamples (fun i => sampleOf F i) < 2 ^ b := lt_of_lt_of_le hlt (key _ (by omega))
    rw [Nat.testBit_lt_two_pow h1, Nat.testBit_lt_two_pow h2]
end Sys2Proof.Machine
end

