-- ==== Sys2Proof/Machine/Assembler.lean ====
section
/-! DEFINITION. The assembler of request words (30_encoding R69), over the characters of a line. What the rule leaves
open of the text (spaces, tabs, the range of `.word`) is log 18. -/

namespace Sys2Proof.Machine

/-- What a line of assembly gives. -/
inductive Assembled where
  /-- A line with no request: blank, or a comment alone. -/
  | nothing
  /-- A request word. -/
  | request (w : Word)
  /-- The assembler rejects the line. -/
  | rejected
deriving DecidableEq, Repr

/-- A space or a tab (log 18). -/
def isBlank (c : Char) : Bool := c == ' ' || c == '\t'

/-- The line up to its comment: "`;` starts a comment" (R69). -/
def beforeComment (cs : List Char) : List Char := cs.takeWhile fun c => c != ';'

/-- The text without blanks at its ends. -/
def trimBlanks (cs : List Char) : List Char :=
  ((cs.dropWhile isBlank).reverse.dropWhile isBlank).reverse

/-- The value of a digit; 16 for a character that is none. -/
def digitValue (c : Char) : Nat :=
  if '0' ≤ c ∧ c ≤ '9' then c.toNat - 48
  else if 'a' ≤ c ∧ c ≤ 'f' then c.toNat - 87
  else if 'A' ≤ c ∧ c ≤ 'F' then c.toNat - 55
  else 16

/-- The number the digits write in a base, from `acc` on. -/
def parseDigits (base : Nat) : Nat → List Char → Option Nat
  | acc, [] => some acc
  | acc, c :: cs => if digitValue c < base then parseDigits base (acc * base + digitValue c) cs else none

/-- A decimal or `0x` hexadecimal number (R69). -/
def parseNat : List Char → Option Nat
  | [] => none
  | ['0', 'x'] => none
  | '0' :: 'x' :: ds => parseDigits 16 0 ds
  | ds => parseDigits 10 0 ds

/-- A decimal or `0x` hexadecimal integer, "optionally negative" (R69). -/
def parseInt (cs : List Char) : Option Int :=
  match trimBlanks cs with
  | '-' :: ds => (parseNat ds).map fun n => -(n : Int)
  | ds => (parseNat ds).map fun n => (n : Int)

/-- The operands of a line, separated by commas. -/
def splitCommas : List Char → List (List Char)
  | [] => [[]]
  | c :: cs =>
    if c == ',' then [] :: splitCommas cs
    else
      match splitCommas cs with
      | [] => [[c]]
      | d :: ds => (c :: d) :: ds

/-- A request that is assembled where its operands fit 12 bits and rejected where one does not (R69). -/
def assembleInstr (i : Instr) : Assembled :=
  if i.wellFormed then .request (encode i) else .rejected

/-- A line of an operation that takes no operand. -/
def assemblePlain (i : Instr) (operands : List Char) : Assembled :=
  if operands = [] then assembleInstr i else .rejected

/-- A line of GET_ADC: one operand. -/
def assembleIdx (operands : List Char) : Assembled :=
  match splitCommas operands with
  | [t] =>
    match parseInt t with
    | some i => assembleInstr (.getAdc i)
    | none => .rejected
  | _ => .rejected

/-- A line of a wrapper: `femb` first (R69). -/
def assembleFembIdx (op : Int → Int → Instr) (operands : List Char) : Assembled :=
  match splitCommas operands with
  | [t, u] =>
    match parseInt t, parseInt u with
    | some femb, some i => assembleInstr (op femb i)
    | _, _ => .rejected
  | _ => .rejected

/-- `.word <32-bit value>`: any raw request word (R69). -/
def assembleWord (operands : List Char) : Assembled :=
  match parseNat operands with
  | some n => if n < 2 ^ 32 then .request (BitVec.ofNat 32 n) else .rejected
  | none => .rejected

/-- A line by its mnemonic: lower case, the source's accessor names (R69). -/
def assembleMnemonic (m operands : List Char) : Assembled :=
  if m = "get_adc".toList then assembleIdx operands
  else if m = "get_u".toList then assembleFembIdx .getU operands
  else if m = "get_v".toList then assembleFembIdx .getV operands
  else if m = "get_x".toList then assembleFembIdx .getX operands
  else if m = "timestamp".toList then assemblePlain .timestamp operands
  else if m = "crate".toList then assemblePlain .crate operands
  else if m = "frame_version".toList then assemblePlain .frameVersion operands
  else if m = "slot".toList then assemblePlain .slot operands
  else if m = "fiber".toList then assemblePlain .fiber operands
  else if m = "femb_valid".toList then assemblePlain .fembValid operands
  else if m = "status_code_1".toList then assemblePlain .statusCode1 operands
  else if m = "status_code_2".toList then assemblePlain .statusCode2 operands
  else if m = "timestamp_1".toList then assemblePlain .timestamp1 operands
  else if m = "timestamp_2".toList then assemblePlain .timestamp2 operands
  else if m = "crc20".toList then assemblePlain .crc20 operands
  else if m = "flex_word_12".toList then assemblePlain .flexWord12 operands
  else if m = "eof".toList then assemblePlain .eof operands
  else if m = "flex_word_24".toList then assemblePlain .flexWord24 operands
  else if m = ".word".toList then assembleWord operands
  else .rejected

/-- One line of assembly: a mnemonic and its operands (R69). -/
def assembleLine (line : List Char) : Assembled :=
  let text := trimBlanks (beforeComment line)
  if text = [] then .nothing
  else
    let m := text.takeWhile fun c => !isBlank c
    assembleMnemonic m (trimBlanks (text.drop m.length))

/-- A program, one request per line (R69, 95_test_vectors section 7): its request words in order, or none where a line
is rejected. -/
def assembleProgram : List (List Char) → Option (List Word)
  | [] => some []
  | line :: lines =>
    match assembleLine line with
    | .nothing => assembleProgram lines
    | .request w => (assembleProgram lines).map fun ws => w :: ws
    | .rejected => none


end Sys2Proof.Machine
end

