-- ==== Sys2Proof/Tests/Slice0.lean ====
section
/-! SUPPORT. Tests of the model. Expected values come from the spec: its worked examples, its test vectors
(95_test_vectors, cited by their ids) and its encodings, never from the model. The witnesses at the end show, for each
statement with hypotheses, a concrete state and operands that meet them all. -/

namespace Sys2Proof.Tests

open Sys2Proof Sys2Proof.Machine

/-! ### Helpers -/

/-- Storage in which the frame words listed are written, at frame base `base`, in byte order `o`. -/
def storage (o : ByteOrder) (base : Nat) : List (Nat × Word) → Memory
  | [] => []
  | (k, w) :: ws => Memory.writeBytes (storage o base ws) (base + 4 * k) (bytesOfWord o w)

/-- A machine whose frame holds the words listed. -/
def machine (ws : List (Nat × Word)) : State := { State.reset with mem := storage .little 0 ws }

/-- A machine of a big host, its frame at address 8, with two ports. -/
def bigMachine (ws : List (Nat × Word)) : State :=
  { State.reset with
    mem := storage .big 8 ws
    platform := { frameBase := 8, byteOrder := .big, bufferBytes := 476, ports := 2 } }

/-- The response to a request word, its status and result, and the frame words read. -/
def ask (s : State) (w : Nat) : Option (Status × Nat × List Nat) :=
  match step (s.withFetchWord 32 w) with
  | .next t => t.resp.map fun r => (r.status, r.result.toNat, t.reads)
  | _ => none

/-- The responses of `k` steps. -/
def responsesAfter (k : Nat) (s : State) : Option (List (Nat × Status × Nat)) :=
  match Host.Core.run core k s with
  | .next t => some (t.responses.map fun r => (r.1, r.2.status, r.2.result.toNat))
  | _ => none

/-! ### WellFormed refuses ill-formed requests -/

theorem test_wf_getAdc_high : (Instr.getAdc 2048).wellFormed = false := by decide
theorem test_wf_getAdc_low : (Instr.getAdc (-2049)).wellFormed = false := by decide
theorem test_wf_getU_femb : (Instr.getU 2048 0).wellFormed = false := by decide
theorem test_wf_getU_idx : (Instr.getU 0 (-2049)).wellFormed = false := by decide
theorem test_wf_getV_femb : (Instr.getV (-2049) 0).wellFormed = false := by decide
theorem test_wf_getV_idx : (Instr.getV 0 2048).wellFormed = false := by decide
theorem test_wf_getX_femb : (Instr.getX 2048 0).wellFormed = false := by decide
theorem test_wf_getX_idx : (Instr.getX 0 2048).wellFormed = false := by decide
theorem test_wf_reservedRsv : (Instr.reservedRsv 0 5).wellFormed = false := by decide
theorem test_wf_extremes : (Instr.getU (-2048) 2047).wellFormed = true := by decide

/-! ### Decoding, by words written out from the encodings of 40_sample_access, 41_field_access and 30_encoding -/

theorem test_decode_getAdc : decode 0b000000000000_000000000010_000_00000#32 = .getAdc 2 := by decide
theorem test_decode_getAdc_negative : decode 0b000000000000_111111111111_000_00000#32 = .getAdc (-1) := by decide
theorem test_decode_getU : decode 0b111111111111_000011001000_000_00001#32 = .getU (-1) 200 := by decide
theorem test_decode_getV : decode 0b000000000001_000000100111_000_00010#32 = .getV 1 39 := by decide
theorem test_decode_getX : decode 0b000000000001_000000101111_000_00011#32 = .getX 1 47 := by decide
theorem test_decode_timestamp : decode 0b000000000011_000000000111_000_00100#32 = .timestamp := by decide
theorem test_decode_crate : decode 0b000000000000_000000000000_000_00101#32 = .crate := by decide
theorem test_decode_frameVersion : decode 0b000000000000_000000000000_000_00110#32 = .frameVersion := by decide
theorem test_decode_slot : decode 0b000000000000_000000000000_000_00111#32 = .slot := by decide
theorem test_decode_fiber : decode 0b000000000000_000000000000_000_01000#32 = .fiber := by decide
theorem test_decode_fembValid : decode 0b000000000000_000000000000_000_01001#32 = .fembValid := by decide
theorem test_decode_statusCode1 : decode 0b000000000000_000000000000_000_01010#32 = .statusCode1 := by decide
theorem test_decode_statusCode2 : decode 0b000000000000_000000000000_000_01011#32 = .statusCode2 := by decide
theorem test_decode_timestamp1 : decode 0b000000000000_000000000000_000_01100#32 = .timestamp1 := by decide
theorem test_decode_timestamp2 : decode 0b000000000000_000000000000_000_01101#32 = .timestamp2 := by decide
theorem test_decode_crc20 : decode 0b000000000000_000000000000_000_01110#32 = .crc20 := by decide
theorem test_decode_flexWord12 : decode 0b000000000000_000000000000_000_01111#32 = .flexWord12 := by decide
theorem test_decode_eof : decode 0b000000000000_000000000000_000_10000#32 = .eof := by decide
theorem test_decode_flexWord24 : decode 0b000000000000_000000000000_000_10001#32 = .flexWord24 := by decide
theorem test_decode_reservedOp12 : decode 0b000000000000_000000000000_000_10011#32 = .reservedOp12 1 := by decide
theorem test_decode_reservedOp14 : decode 0b000000000000_000000000000_000_10110#32 = .reservedOp14 2 := by decide
theorem test_decode_reservedOp18 : decode 0b000000000000_000000000000_000_11111#32 = .reservedOp18 7 := by decide
theorem test_decode_reservedRsv : decode 0b000000000000_111111111111_001_00000#32 = .reservedRsv 1 0 := by decide
/-- A reserved `op` under a nonzero `rsv`: the `rsv` row wins (opcode_table.json, E-03). -/
theorem test_decode_rsv_over_op : decode 0xFFFFFFFF = .reservedRsv 7 0x1F := by decide
/-- R69's examples. -/
theorem test_encode_getU : encode (.getU 1 0) = 0x00100001 := by decide
theorem test_encode_getAdc : encode (.getAdc (-1)) = 0x000FFF00 := by decide
theorem test_tableWord : decodeTableWord 32 0x12 = some (.reservedOp12 0) := by decide

/-! ### The sample family (95_test_vectors section 3) -/

/-- S-14. -/
theorem test_getAdc_straddle : ask (machine [(4, 0xF0000000), (5, 0x00000003)]) 0x200 = some (.ok, 0x3F, [4, 5]) := by
  decide
/-- S-13. -/
theorem test_getAdc_last : ask (machine [(115, 0x03FC0FE0)]) 0xFF00 = some (.ok, 0xFF, [115]) := by decide
/-- S-45. -/
theorem test_getU_negative_femb : ask (machine [(35, 0x4048011C)]) 0xFFF0C801 = some (.ok, 0x48, [35]) := by decide
/-- S-53. -/
theorem test_getU_out_of_range : ask (machine []) 0x00200001 = some (.indexOutOfRange, 0, []) := by decide
/-- S-40. -/
theorem test_getV : ask (machine [(94, 0x033C0CE0)]) 0x00102702 = some (.ok, 0xCF, [94]) := by decide
/-- S-48. -/
theorem test_getV_out_of_range : ask (machine []) 0x00105802 = some (.indexOutOfRange, 0, []) := by decide
/-- S-41. -/
theorem test_getX : ask (machine [(95, 0x203440D0)]) 0x00100003 = some (.ok, 0xD0, [95]) := by decide
/-- S-51. -/
theorem test_getX_below_range : ask (machine []) 0x000FAF03 = some (.indexOutOfRange, 0, []) := by decide

/-! ### Timestamp and fields (95_test_vectors sections 4 and 5) -/

/-- T-02. -/
theorem test_timestamp : ask (machine [(2, 0xFFFFFFFF), (3, 0x00000001)]) 0x4 = some (.ok, 0x1FFFFFFFF, [2, 3]) := by
  decide
/-- T-06, in a big host whose frame stands at address 8: the words, not the bytes, decide (R45). -/
theorem test_timestamp_big :
    ask (bigMachine [(2, 0x89ABCDEF), (3, 0x01234567)]) 0x4 = some (.ok, 0x123456789ABCDEF, [2, 3]) := by decide
/-- H-01, all the fields of word 0; E-07's ignored operand fields. -/
theorem test_crate : ask (machine [(0, 0x89ABCDEF)]) 0xFFFFFF05 = some (.ok, 0xEF, [0]) := by decide
theorem test_frameVersion : ask (machine [(0, 0x89ABCDEF)]) 0x6 = some (.ok, 0xD, [0]) := by decide
theorem test_slot : ask (machine [(0, 0x89ABCDEF)]) 0x7 = some (.ok, 0x4, [0]) := by decide
theorem test_fiber : ask (machine [(0, 0x89ABCDEF)]) 0x8 = some (.ok, 0x1, [0]) := by decide
theorem test_fembValid : ask (machine [(0, 0x89ABCDEF)]) 0x9 = some (.ok, 0x3, [0]) := by decide
theorem test_statusCode1 : ask (machine [(0, 0x89ABCDEF)]) 0xA = some (.ok, 0x226A, [0]) := by decide
theorem test_statusCode2 : ask (machine [(1, 0x89ABCDEF)]) 0xB = some (.ok, 0x89ABCDEF, [1]) := by decide
theorem test_timestamp1 : ask (machine [(2, 0x00000000)]) 0xC = some (.ok, 0x0, [2]) := by decide
theorem test_timestamp2 : ask (machine [(3, 0x80000000)]) 0xD = some (.ok, 0x80000000, [3]) := by decide
/-- X-04 and X-02. -/
theorem test_crc20 : ask (machine [(116, 0xABC12345)]) 0xE = some (.ok, 0x12345, [116]) := by decide
theorem test_flexWord12 : ask (machine [(116, 0xABC12345)]) 0xF = some (.ok, 0xABC, [116]) := by decide
theorem test_eof : ask (machine [(117, 0xFFFFFF00)]) 0x10 = some (.ok, 0x0, [117]) := by decide
theorem test_flexWord24 : ask (machine [(118, 0xA5FEDCBA)]) 0x11 = some (.ok, 0xFEDCBA, [118]) := by decide

/-! ### Illegal requests and priority (95_test_vectors section 6) -/

/-- E-01, E-02, and op 0x14 (R66). -/
theorem test_reservedOp12 : ask (machine []) 0x12 = some (.illegalRequest, 0, []) := by decide
theorem test_reservedOp14 : ask (machine []) 0x14 = some (.illegalRequest, 0, []) := by decide
theorem test_reservedOp18 : ask (machine []) 0x1F = some (.illegalRequest, 0, []) := by decide
/-- S-26: illegal wins over out of range. -/
theorem test_reservedRsv : ask (machine []) 0x000FFF20 = some (.illegalRequest, 0, []) := by decide

/-! ### The interface -/

/-- 70_reset R152: the host writes the frame, then issues a request, and the request sees the write (R53). -/
theorem test_boot_then_request :
    responsesAfter 3 { State.reset with turns := [.storeWord 0 0xAAF2D312, .request 0 0x5, .answer 0] } =
      some [(0, .ok, 0x12)] := by decide
/-- R44: a big host's bytes. -/
theorem test_big_bytes : (bigMachine [(0, 0x89ABCDEF)]).mem = [(8, 0x89), (9, 0xAB), (10, 0xCD), (11, 0xEF)] := by decide
/-- R45: a little host's halfword makes the low half of the word. -/
theorem test_little_half :
    responsesAfter 4
      { State.reset with turns := [.storeWord 4 0x89ABCDEF, .storeHalf 4 0x1234, .request 0 0xB, .answer 0] } =
      some [(0, .ok, 0x89AB1234)] := by decide
/-- R150: the reset discards the request in flight. -/
theorem test_reset_discards :
    responsesAfter 3 { State.reset with turns := [.request 0 0x12, .reset, .answer 0] } = some [] := by decide
/-- R153: an overlapped request keeps its status; an error keeps its result 0. -/
theorem test_overlapped_error :
    responsesAfter 3 { State.reset with turns := [.request 0 0x00010000, .storeByte 16 0xFF, .answer 0] } =
      some [(0, .indexOutOfRange, 0)] := by decide
/-- R68's codes. -/
theorem test_statusCode_index : statusCode .indexOutOfRange = 1 := by decide

/-! ### The assembler (30_encoding R69, 95_test_vectors) -/

theorem test_asm_getU : assembleLine "get_u 1, 0".toList = .request 0x00100001 := by decide
theorem test_asm_getAdc : assembleLine "  get_adc -1 ; last".toList = .request 0x000FFF00 := by decide
theorem test_asm_hex : assembleLine "get_x 0x1,0x2F".toList = .request 0x00102F03 := by decide
theorem test_asm_too_wide : assembleLine "get_adc 2048".toList = .rejected := by decide
theorem test_asm_word : assembleLine ".word 0x000FFF20".toList = .request 0x000FFF20 := by decide
theorem test_asm_plain : assembleLine "flex_word_24".toList = .request 0x00000011 := by decide
theorem test_asm_program :
    assembleProgram ["; P2".toList, "get_v 1, 39".toList, "timestamp".toList] = some [0x00102702, 0x00000004] := by decide

/-! ### Witnesses: the hypotheses of each statement are met -/

/-- Two requests of port 1 and one of port 0 in flight. -/
def busy : State :=
  { bigMachine [(0, 0x89ABCDEF)] with
    inFlight := [{ port := 1, word := 0x5, overlapped := false }, { port := 0, word := 0x12, overlapped := false },
      { port := 1, word := 0x6, overlapped := false }]
    position := 3 }

/-- `busy` with turns to come. -/
def busyWith (ts : List Turn) : State := { busy with turns := ts }

theorem witness_DecodeInvertsEncode :
    (Instr.getU (-2048) 2047).wellFormed = true ∧ (Instr.reservedRsv 7 31).wellFormed = true := by decide

theorem witness_StepRunsDecodedRequest :
    platformRefusal busy.platform = none ∧
    fetch (busyWith [.answer 0]) =
      some ({ port := 0, word := 0x12, overlapped := false },
        { busyWith [] with
          inFlight := [{ port := 1, word := 0x5, overlapped := false }, { port := 1, word := 0x6, overlapped := false }] }) ∧
    decode 0x12 = .reservedOp12 0 ∧ (Instr.reservedOp12 0).wellFormed = true := by decide

/-- For each of the four sample operations: a word of it, the ends of the range and just outside, a nonzero `rsv`. -/
theorem witness_GetAdcReturnsItsSample :
    (0xFFFFFF00 : Word).toNat % 256 = 0x00 ∧ ((0 : Int) ≤ 255 ∧ (255 : Int) ≤ 255) ∧ ((-1 : Int) < 0 ∧ (255 : Int) < 256) ∧
    opField 0x20 = 0x00 ∧ rsvField 0x20 ≠ 0 := by decide
theorem witness_GetUReturnsTranslatedSample :
    (0xFFF0C801 : Word).toNat % 256 = 0x01 ∧ ((0 : Int) = 128 * 0 + 0 ∧ (255 : Int) = 128 * 2 + (-1)) ∧
    ((-1 : Int) = 128 * 0 + (-1) ∧ (256 : Int) = 128 * 2 + 0) ∧ opField 0xE1 = 0x01 ∧ rsvField 0xE1 ≠ 0 := by decide
theorem witness_GetVReturnsTranslatedSample :
    (0x00102702 : Word).toNat % 256 = 0x02 ∧ ((0 : Int) = 128 * 0 + 40 + (-40) ∧ (255 : Int) = 128 * 1 + 40 + 87) ∧
    ((-1 : Int) = 128 * 0 + 40 + (-41) ∧ (256 : Int) = 128 * 1 + 40 + 88) ∧ opField 0x22 = 0x02 ∧ rsvField 0x22 ≠ 0 := by
  decide
theorem witness_GetXReturnsTranslatedSample :
    (0x00102F03 : Word).toNat % 256 = 0x03 ∧ ((0 : Int) = 128 * 0 + 80 + (-80) ∧ (255 : Int) = 128 * 1 + 80 + 47) ∧
    ((-1 : Int) = 128 * 0 + 80 + (-81) ∧ (256 : Int) = 128 * 1 + 80 + 48) ∧ opField 0x23 = 0x03 ∧ rsvField 0x23 ≠ 0 := by
  decide

/-- The payload of a frame is the packing of its own samples. -/
theorem witness_PackedSamplesRoundTrip :
    payloadValue (frameOf (machine [(4, 0xF0000000), (5, 0x00000003)])) =
      packSamples (fun i => sampleOf (frameOf (machine [(4, 0xF0000000), (5, 0x00000003)])) i) ∧ 255 ≤ 255 :=
  ⟨(packSamples_sampleOf _).symm, le_refl _⟩

theorem witness_SampleBitsAreStreamBits : (255 ≤ 255 ∧ 13 < 14) ∧ (0 ≤ 255 ∧ 0 < 14) := by decide

/-- Sample 253 is the last that straddles; 255 does not. -/
theorem witness_ExtractorIsFunnelShift : (253 ≤ 255 ∧ straddles 253 = true) ∧ (255 ≤ 255 ∧ straddles 255 = false) := by
  decide

theorem witness_SampleResultsFitFourteenBits :
    (0x0000FF03 : Word).toNat % 256 < 4 ∧ ask (machine [(4, 0xFFFFFFFF)]) 0 = some (.ok, 16383, [4]) := by decide

/-- Each clause: a sample in range; an index at each end and the group boundaries. -/
theorem witness_SampleReadsStayInPayload :
    ∃ v t, sampleExtract 253 (machine [(114, 0xFFC00000), (115, 0xF)]) = .sample v t :=
  ⟨_, _, rfl⟩
theorem witness_WrappersPartitionTheSamples :
    (167 ≤ 255 ∧ 167 % 128 < 40) ∧ (168 ≤ 255 ∧ 40 ≤ 168 % 128 ∧ 207 % 128 < 80) ∧ (208 ≤ 255 ∧ 80 ≤ 208 % 128) := by decide

theorem witness_TimestampConcatenatesHalves :
    (0x00300704 : Word).toNat % 256 = 0x04 ∧ opField 0xE4 = 0x04 ∧ rsvField 0xE4 ≠ 0 := by decide
theorem witness_HeaderWordZeroFields :
    (0xFFFFFF05 : Word).toNat % 256 = 0x05 ∧ (6 : Word).toNat % 256 = 0x06 ∧ (7 : Word).toNat % 256 = 0x07 ∧
    (8 : Word).toNat % 256 = 0x08 ∧ (9 : Word).toNat % 256 = 0x09 ∧ (0x30A : Word).toNat % 256 = 0x0A := by decide
theorem witness_HeaderWholeWordFields :
    (0x0B : Word).toNat % 256 = 0x0B ∧ (0x10C : Word).toNat % 256 = 0x0C ∧ (0x0D : Word).toNat % 256 = 0x0D := by decide
theorem witness_TrailerFields :
    (0x0E : Word).toNat % 256 = 0x0E ∧ (0x0F : Word).toNat % 256 = 0x0F ∧ (0xFFFFFF10 : Word).toNat % 256 = 0x10 ∧
    (0x11 : Word).toNat % 256 = 0x11 := by decide

theorem witness_ReservedRequestsAreIllegal :
    rsvField 0x20 ≠ 0 ∧ 0x12 ≤ (opField 0x12).toNat ∧ 0x12 ≤ (opField 0x1F).toNat := by decide

/-- Two frames that differ in the ignored bits of words 117 and 118 and nowhere else (FA's trailer and another). -/
def trailerA : State := machine [(117, 0x1234563C), (118, 0xA5FEDCBA)]
def trailerB : State := machine [(117, 0xFFFFFF3C), (118, 0x00FEDCBA)]

theorem witness_IgnoredBitsReachNoResponse :
    (∀ k, k < 117 → frameWord trailerA k = frameWord trailerB k) ∧
    (frameWord trailerA 117).extractLsb' 0 8 = (frameWord trailerB 117).extractLsb' 0 8 ∧
    (frameWord trailerA 118).extractLsb' 0 24 = (frameWord trailerB 118).extractLsb' 0 24 ∧
    frameWord trailerA 117 ≠ frameWord trailerB 117 := by
  have hA : ∀ a, a < 468 → trailerA.mem.read? a = none := fun a h => by
    rw [show trailerA.mem = Memory.writeBytes (Memory.writeBytes [] 472 (bytesOfWord .little 0xA5FEDCBA)) 468
        (bytesOfWord .little 0x1234563C) from rfl, Memory.read?_writeBytes_of_outside _ _ _ _ (.inl h),
      Memory.read?_writeBytes_of_outside _ _ _ _ (.inl (by omega))]
    rfl
  have hB : ∀ a, a < 468 → trailerB.mem.read? a = none := fun a h => by
    rw [show trailerB.mem = Memory.writeBytes (Memory.writeBytes [] 472 (bytesOfWord .little 0x00FEDCBA)) 468
        (bytesOfWord .little 0xFFFFFF3C) from rfl, Memory.read?_writeBytes_of_outside _ _ _ _ (.inl h),
      Memory.read?_writeBytes_of_outside _ _ _ _ (.inl (by omega))]
    rfl
  have hb : ∀ a, a < 468 → frameByte trailerA a = frameByte trailerB a := fun a h => by
    rw [frameByte, frameByte, hA a h, hB a h]
  refine ⟨fun k hk => ?_, by decide, by decide, by decide⟩
  show wordOfBytes .little (frameByte trailerA (0 + 4 * k)) (frameByte trailerA (0 + 4 * k + 1))
      (frameByte trailerA (0 + 4 * k + 2)) (frameByte trailerA (0 + 4 * k + 3)) =
    wordOfBytes .little (frameByte trailerB (0 + 4 * k)) (frameByte trailerB (0 + 4 * k + 1))
      (frameByte trailerB (0 + 4 * k + 2)) (frameByte trailerB (0 + 4 * k + 3))
  rw [hb _ (by omega), hb _ (by omega), hb _ (by omega), hb _ (by omega)]

theorem witness_FieldsDependOnNamedWordsOnly :
    4 ≤ (0x10 : Word).toNat % 256 ∧ (0x10 : Word).toNat % 256 ≤ 17 ∧
    (0xFFFFFF10 : Word).toNat % 256 = (0x10 : Word).toNat % 256 ∧
    (∀ k ∈ readsOf 0x10, frameWord (machine [(117, 0x3C), (0, 1)]) k = frameWord (machine [(117, 0x3C), (0, 2)]) k) := by
  decide

theorem witness_AnswerTurnDeliversOldest :
    platformRefusal busy.platform = none ∧ (busyWith [.answer 1, .answer 1]).turns = [.answer 1, .answer 1] ∧
    takeOldest 1 busy.inFlight =
      some ({ port := 1, word := 0x5, overlapped := false },
        [{ port := 0, word := 0x12, overlapped := false }, { port := 1, word := 0x6, overlapped := false }]) := by decide

theorem witness_AnyInterleavingAnswersInOrder :
    platformRefusal (busyWith [.answer 1, .answer 0, .answer 1, .answer 1]).platform = none ∧
    (busyWith [.answer 1, .answer 0, .answer 1, .answer 1]).turns = [1, 0, 1, 1].map .answer ∧
    (∀ p ∈ (busyWith [.answer 1, .answer 0, .answer 1, .answer 1]).inFlight, p.overlapped = false) := by decide

theorem witness_EveryRequestInFlightIsAnswered :
    platformRefusal busy.platform = none ∧ busy.turns = [] ∧ (∀ p ∈ busy.inFlight, p.overlapped = false) ∧
    busy.inFlight.length = 3 := by decide

/-- A step that answers a request, and one that answers none. -/
theorem witness_OneResponsePerRequest :
    (∃ t, step (busyWith [.answer 1]) = .next t) ∧ step State.reset = .next State.reset := ⟨⟨_, rfl⟩, rfl⟩

theorem witness_PresentedRequestIsInFlight :
    platformRefusal busy.platform = none ∧ (busyWith [.request 1 0x5]).turns = .request 1 0x5 :: [] ∧
    1 < busy.platform.ports ∧ (busyWith [.request 2 0x5]).turns = .request 2 0x5 :: [] ∧ busy.platform.ports ≤ 2 := by
  decide

theorem witness_PositionCountsRequests :
    (∃ t, step (busyWith [.request 1 0x5]) = .next t) ∧ (busyWith [.request 1 0x5]).turns = .request 1 0x5 :: [] ∧
    (∃ t, step (busyWith [.reset]) = .next t) ∧ (∀ port w rest, (busyWith [.reset]).turns ≠ .request port w :: rest) :=
  ⟨⟨_, rfl⟩, rfl, ⟨_, rfl⟩, fun _ _ _ h => by simp [busyWith] at h⟩

/-- Two requests in flight whose frame the host has written meanwhile. -/
def raced (ts : List Turn) : State :=
  { busyWith ts with
    inFlight := [{ port := 0, word := 0x12, overlapped := true }, { port := 1, word := 0x5, overlapped := true }] }

/-- An overlapped request with status OK, answered on its port's turn behind one of another port, and one with an
error, answered with no turn left. -/
theorem witness_OverlappedResultIsFree :
    platformRefusal busy.platform = none ∧
    (raced [.answer 1]).inFlight =
      [{ port := 0, word := 0x12, overlapped := true }] ++ { port := 1, word := 0x5, overlapped := true } :: [] ∧
    (raced [.answer 1]).turns = .answer 1 :: [] ∧
    (∀ q ∈ [({ port := 0, word := 0x12, overlapped := true } : Pending)], q.port ≠ 1) ∧
    (answerOf (frameOf (raced [.answer 1])) 0x5).status = .ok ∧
    (raced []).inFlight =
      [] ++ { port := 0, word := 0x12, overlapped := true } :: [{ port := 1, word := 0x5, overlapped := true }] ∧
    (raced []).turns = [] ∧ (answerOf (frameOf (raced [])) 0x12).status ≠ .ok := by decide

theorem witness_FrameWordsFromHostBytes :
    (118 < 119 ∧ 3 < 4) ∧ (machine []).platform.byteOrder = .little ∧ (bigMachine []).platform.byteOrder = .big := by
  decide

theorem witness_StoredWordIsReadBack :
    platformRefusal busy.platform = none ∧ 118 < 119 ∧
    (busyWith [.storeWord 480 0xA5FEDCBA]).turns = .storeWord (busy.platform.frameBase + 4 * 118) 0xA5FEDCBA :: [] := by
  decide

theorem witness_NarrowStoresChangeTheirLanes :
    platformRefusal busy.platform = none ∧ 118 < 119 ∧
    (3 < 4 ∧ (busyWith [.storeByte 483 9]).turns = .storeByte (busy.platform.frameBase + 4 * 118 + 3) 9 :: []) ∧
    (1 < 2 ∧ (busyWith [.storeHalf 482 9]).turns = .storeHalf (busy.platform.frameBase + 4 * 118 + 2 * 1) 9 :: []) ∧
    busy.platform.byteOrder = .big ∧ (machine []).platform.byteOrder = .little := by decide

/-- A byte just outside each end of the buffer, and a halfword and a word across each end (the buffer is 8 to 483). -/
theorem witness_StoreOutsideFrameFaults :
    platformRefusal busy.platform = none ∧
    ((busyWith [.storeByte 7 1]).turns = .storeByte 7 1 :: [] ∧ 7 < busy.platform.frameBase) ∧
    ((busyWith [.storeByte 484 1]).turns = .storeByte 484 1 :: [] ∧ busy.platform.frameBase + 476 ≤ 484) ∧
    ((busyWith [.storeHalf 7 1]).turns = .storeHalf 7 1 :: [] ∧ 7 < busy.platform.frameBase) ∧
    ((busyWith [.storeHalf 483 1]).turns = .storeHalf 483 1 :: [] ∧ busy.platform.frameBase + 476 ≤ 483 + 1) ∧
    ((busyWith [.storeWord 5 1]).turns = .storeWord 5 1 :: [] ∧ 5 < busy.platform.frameBase) ∧
    ((busyWith [.storeWord 481 1]).turns = .storeWord 481 1 :: [] ∧ busy.platform.frameBase + 476 ≤ 481 + 3) := by decide

theorem witness_OnlyTheHostWritesTheFrame :
    (∃ t, step (busyWith [.answer 0]) = .next t) ∧
    (∀ a v rest, (busyWith [.answer 0]).turns ≠ .storeByte a v :: rest) ∧
    (∀ a v rest, (busyWith [.answer 0]).turns ≠ .storeHalf a v :: rest) ∧
    (∀ a v rest, (busyWith [.answer 0]).turns ≠ .storeWord a v :: rest) :=
  ⟨⟨_, rfl⟩, fun _ _ _ h => by simp [busyWith] at h, fun _ _ _ h => by simp [busyWith] at h,
    fun _ _ _ h => by simp [busyWith] at h⟩

/-- A machine at a misaligned base, one with no port, and one with a buffer one byte short. -/
theorem witness_UnadmittedFramesAreRefused :
    ({ resetPlatform with frameBase := 2 } : Platform).bufferBytes = 476 ∧
    ({ resetPlatform with frameBase := 2 } : Platform).frameBase % 4 ≠ 0 ∧
    (({ resetPlatform with ports := 0 } : Platform).bufferBytes = 476 ∧
      ({ resetPlatform with ports := 0 } : Platform).frameBase % 4 = 0 ∧ ({ resetPlatform with ports := 0 } : Platform).ports = 0) ∧
    ({ resetPlatform with bufferBytes := 475 } : Platform).bufferBytes ≠ 476 := by decide

/-- 00_scope R8: `N_PORTS` is at least 1, so a request placed in a machine without ports is not answered. -/
theorem test_noPorts :
    step (({ State.reset with platform := { resetPlatform with ports := 0 } } : State).withFetchWord 32 5) =
      .refused .noPorts := rfl

theorem witness_ResetDiscardsRequests :
    platformRefusal busy.platform = none ∧ (busyWith [.reset]).turns = .reset :: [] ∧ busy.inFlight ≠ [] := by decide

/-- The last byte of the buffer may be stored to. -/
theorem witness_AdmittedStepsComplete :
    platformRefusal busy.platform = none ∧
    (∀ port w rest, (busyWith [.storeByte 483 1]).turns = .request port w :: rest → port < busy.platform.ports) ∧
    (∀ a v rest, (busyWith [.storeByte 483 1]).turns = .storeByte a v :: rest →
      busy.platform.frameBase ≤ a ∧ a + 1 ≤ busy.platform.frameBase + 476) ∧
    (∀ a v rest, (busyWith [.storeByte 483 1]).turns = .storeHalf a v :: rest →
      busy.platform.frameBase ≤ a ∧ a + 2 ≤ busy.platform.frameBase + 476) ∧
    (∀ a v rest, (busyWith [.storeByte 483 1]).turns = .storeWord a v :: rest →
      busy.platform.frameBase ≤ a ∧ a + 4 ≤ busy.platform.frameBase + 476) := by
  refine ⟨by decide, ?_, ?_, ?_, ?_⟩ <;> intro a v rest h <;> simp [busyWith] at h
  obtain ⟨⟨rfl, -⟩, -⟩ := h
  decide

/-- A busy state that meets the invariant, and steps. -/
theorem witness_EveryStepKeepsInv : Inv (busyWith [.answer 1]) ∧ ∃ t, step (busyWith [.answer 1]) = .next t :=
  ⟨⟨by decide, by decide, by decide, by decide, by decide, by decide, nofun, by decide, by decide⟩, ⟨_, rfl⟩⟩

end Sys2Proof.Tests
end

section
/-! PROOF. The ignored trailer bits reach no response (10_state R34), as noninterference: what each shared operation
answers is said as an equation, in which only named bits of the frame occur, and two states that agree on those bits
are then answered alike. -/

namespace Sys2Proof.Machine

/-! ### What the shared operations answer -/

/-- Bit j of a field is bit `lo + j` of the word, below the field's width (00_scope R9). -/
theorem getLsbD_fieldOf (w : Word) (lo width j : Nat) :
    (fieldOf w lo width).getLsbD j = (w.getLsbD (lo + j) && decide (j < width)) := by
  rw [fieldOf, BitVec.getLsbD_and, BitVec.getLsbD_ushiftRight, BitVec.getLsbD_ofNat, Nat.testBit_two_pow_sub_one]
  by_cases hj : lo + j < 32
  · simp [show j < 32 by omega]
  · simp [BitVec.getLsbD_of_ge w (lo + j) (by omega)]

/-- A field that lies within the low `n` bits of a word depends on those bits alone. -/
theorem fieldOf_congr_of_low_bits {w w' : Word} {n lo width : Nat} (hfit : lo + width ≤ n)
    (h : w.extractLsb' 0 n = w'.extractLsb' 0 n) : fieldOf w lo width = fieldOf w' lo width := by
  refine BitVec.eq_of_getLsbD_eq fun j _ => ?_
  rw [getLsbD_fieldOf, getLsbD_fieldOf]
  by_cases hj : j < width
  · have hbit := congrArg (·.getLsbD (lo + j)) h
    simp only [BitVec.getLsbD_extractLsb', Nat.zero_add, show lo + j < n by omega, decide_true, Bool.true_and] at hbit
    rw [hbit]
  · simp [hj]

/-- Everything TIMESTAMP does (41_field_access R100). -/
theorem execTimestamp_eq (s : State) :
    execTimestamp s =
      .next (answeredWith s [2, 3] { status := .ok, result := frameWord s 3 ++ frameWord s 2 }) := by
  simp only [execTimestamp, frameRead_of_lt (show 2 < 119 by decide), frameRead_of_lt (show 3 < 119 by decide),
    returnValue, respond_recordRead_twice, frameWord_recordRead, BitVec.setWidth_eq]

/-- What the barrel shifter makes of the payload words that hold sample n: `SampleExtract`'s value, without its reads
(40_sample_access R80, `extractInRange_eq_sample`). -/
def shiftedSample (s : State) (n : Nat) : Sample :=
  if 18 < 14 * n % 32 then
    (frameWord s (4 + 14 * n / 32) >>> (14 * n % 32) |||
      frameWord s (5 + 14 * n / 32) <<< (32 - 14 * n % 32)).setWidth 14
  else (frameWord s (4 + 14 * n / 32) >>> (14 * n % 32)).setWidth 14

/-- The datapath of `SampleExtract` on an index in range: the shifter's value, after the reads of the spec's table
(20_memory R47, 40_sample_access R87). -/
theorem extractInRange_eq_sample {n : Nat} (h : n ≤ 255) (s : State) :
    extractInRange n s = .sample (shiftedSample s n) { s with reads := s.reads ++ sampleReads n } := by
  rw [extractInRange_eq h, shiftedSample, sampleReads, straddles_iff]
  by_cases hs : 18 < 14 * n % 32
  · simp [hs, recordRead]
  · simp [hs, recordRead]

/-- Everything a sample-family operation does on an index in range. -/
theorem readSample_of_inRange {n : Int} (h0 : 0 ≤ n) (h1 : n ≤ 255) (s : State) :
    readSample n s = .next (answeredWith s (sampleReads n.toNat)
      { status := .ok, result := (shiftedSample s n.toNat).setWidth 64 }) := by
  rw [readSample, sampleExtract, if_neg (by omega), extractInRange_eq_sample (by omega)]
  rfl

/-- Everything it does on any other index. -/
theorem readSample_of_outOfRange {n : Int} (h : n < 0 ∨ 255 < n) (s : State) :
    readSample n s = .next (answeredWith s [] (errorResponse .indexOutOfRange)) := by
  rw [readSample, sampleExtract, if_pos h]
  exact raiseError_eq _ s

/-- The shifter's value depends on payload words alone (40_sample_access R88). -/
theorem shiftedSample_congr {s s' : State} (h : ∀ k, 4 ≤ k → k ≤ 115 → frameWord s k = frameWord s' k) {n : Nat}
    (hn : n ≤ 255) : shiftedSample s n = shiftedSample s' n := by
  have hfirst := h (4 + 14 * n / 32) (by omega) (by omega)
  by_cases hs : 18 < 14 * n % 32
  · have hsecond := h (5 + 14 * n / 32) (by omega) (by omega)
    simp only [shiftedSample, hs, if_true, hfirst, hsecond]
  · simp only [shiftedSample, hs, if_false, hfirst]

/-! ### Two states answered alike -/

/-- A meaning answers two states alike: it completes in both, after the same reads and with the same response. -/
def AnswersAlike (f : State → Host.Outcome State Fault Refusal) (s s' : State) : Prop :=
  ∃ ks r, f s = .next (answeredWith s ks r) ∧ f s' = .next (answeredWith s' ks r)

/-- An error is raised alike in any two states (60_exceptions R135). -/
theorem raiseError_alike (st : Status) (s s' : State) : AnswersAlike (raiseError st) s s' :=
  ⟨_, _, raiseError_eq st s, raiseError_eq st s'⟩

/-- A field operation answers alike where its field is the same. -/
theorem readField_alike {k lo width : Nat} {s s' : State} (hk : k < 119)
    (h : fieldOf (frameWord s k) lo width = fieldOf (frameWord s' k) lo width) :
    AnswersAlike (readField k lo width) s s' :=
  ⟨_, _, readField_eq hk lo width s, by rw [h]; exact readField_eq hk lo width s'⟩

/-- TIMESTAMP answers alike where words 2 and 3 are the same. -/
theorem execTimestamp_alike {s s' : State} (hlo : frameWord s 2 = frameWord s' 2)
    (hhi : frameWord s 3 = frameWord s' 3) : AnswersAlike execTimestamp s s' :=
  ⟨_, _, execTimestamp_eq s, by rw [hlo, hhi]; exact execTimestamp_eq s'⟩

/-- A sample-family operation answers alike, in range or not, where the payload words are the same. -/
theorem readSample_alike {s s' : State} (h : ∀ k, 4 ≤ k → k ≤ 115 → frameWord s k = frameWord s' k) (n : Int) :
    AnswersAlike (readSample n) s s' := by
  by_cases hn : n < 0 ∨ 255 < n
  · exact ⟨_, _, readSample_of_outOfRange hn s, readSample_of_outOfRange hn s'⟩
  · refine ⟨_, _, readSample_of_inRange (by omega) (by omega) s, ?_⟩
    rw [shiftedSample_congr h (by omega)]
    exact readSample_of_inRange (by omega) (by omega) s'

/-! ### The ignored trailer bits -/

/-- Two states whose frames agree on all bits but the ignored ones, `F[117][31:8]` and `F[118][31:24]` (10_state
R34). -/
structure AgreeButIgnored (s s' : State) : Prop where
  words : ∀ k, k < 117 → frameWord s k = frameWord s' k
  eofBits : (frameWord s 117).extractLsb' 0 8 = (frameWord s' 117).extractLsb' 0 8
  flexBits : (frameWord s 118).extractLsb' 0 24 = (frameWord s' 118).extractLsb' 0 24

section
variable {s s' : State}

/-- The sample family reads payload words only, which have no ignored bits. -/
theorem AgreeButIgnored.answersAlike_readSample (h : AgreeButIgnored s s') (n : Int) :
    AnswersAlike (readSample n) s s' :=
  readSample_alike (fun k _ hk => h.words k (by omega)) n

/-- No word below the last two has ignored bits. -/
theorem AgreeButIgnored.answersAlike_readField (h : AgreeButIgnored s s') {k : Nat} (hk : k < 117) (lo width : Nat) :
    AnswersAlike (readField k lo width) s s' :=
  readField_alike (by omega) (by rw [h.words k hk])

/-- EOF returns none of the ignored bits of word 117 (41_field_access R112). -/
theorem AgreeButIgnored.answersAlike_execEof (h : AgreeButIgnored s s') : AnswersAlike execEof s s' :=
  readField_alike (by decide) (fieldOf_congr_of_low_bits (by decide) h.eofBits)

/-- FLEX_WORD_24 returns none of the ignored bits of word 118 (R113). -/
theorem AgreeButIgnored.answersAlike_execFlexWord24 (h : AgreeButIgnored s s') : AnswersAlike execFlexWord24 s s' :=
  readField_alike (by decide) (fieldOf_congr_of_low_bits (by decide) h.flexBits)

/-- No request's answer depends on the ignored bits: those of the two operations that read words 117 and 118 lie
outside the fields, and no other operation reads these words. -/
theorem AgreeButIgnored.answersAlike_exec (h : AgreeButIgnored s s') (i : Instr) : AnswersAlike (exec i) s s' := by
  cases i with
  | getAdc i => exact h.answersAlike_readSample (flatIndexAdc i)
  | getU femb i => exact h.answersAlike_readSample (flatIndexU femb i)
  | getV femb i => exact h.answersAlike_readSample (flatIndexV femb i)
  | getX femb i => exact h.answersAlike_readSample (flatIndexX femb i)
  | timestamp => exact execTimestamp_alike (h.words 2 (by decide)) (h.words 3 (by decide))
  | crate => exact h.answersAlike_readField (k := 0) (by decide) 0 8
  | frameVersion => exact h.answersAlike_readField (k := 0) (by decide) 8 4
  | slot => exact h.answersAlike_readField (k := 0) (by decide) 12 3
  | fiber => exact h.answersAlike_readField (k := 0) (by decide) 15 1
  | fembValid => exact h.answersAlike_readField (k := 0) (by decide) 16 2
  | statusCode1 => exact h.answersAlike_readField (k := 0) (by decide) 18 14
  | statusCode2 => exact h.answersAlike_readField (k := 1) (by decide) 0 32
  | timestamp1 => exact h.answersAlike_readField (k := 2) (by decide) 0 32
  | timestamp2 => exact h.answersAlike_readField (k := 3) (by decide) 0 32
  | crc20 => exact h.answersAlike_readField (k := 116) (by decide) 0 20
  | flexWord12 => exact h.answersAlike_readField (k := 116) (by decide) 20 12
  | eof => exact h.answersAlike_execEof
  | flexWord24 => exact h.answersAlike_execFlexWord24
  | reservedOp12 _ => exact raiseError_alike .illegalRequest s s'
  | reservedOp14 _ => exact raiseError_alike .illegalRequest s s'
  | reservedOp18 _ => exact raiseError_alike .illegalRequest s s'
  | reservedRsv _ _ => exact raiseError_alike .illegalRequest s s'

end

/-- Settles O27: the three hypotheses are `AgreeButIgnored`, and the rest is a case per operation. -/
theorem ignoredBitsReachNoResponse : Obligations.IgnoredBitsReachNoResponse :=
  fun i _ _ hwords heof hflex => AgreeButIgnored.answersAlike_exec ⟨hwords, heof, hflex⟩ i

end Sys2Proof.Machine
end

section
/-! PROOF. The frame words are the host's bytes (20_memory R44), and a repeated request is answered as before (R49). -/

namespace Sys2Proof.Machine

/-! ### The bytes of a frame word -/

/-- A big-endian word is the little-endian word of the same bytes in reverse (20_memory R44). -/
theorem wordOfBytes_big (b0 b1 b2 b3 : Byte) : wordOfBytes .big b0 b1 b2 b3 = wordOfBytes .little b3 b2 b1 b0 := rfl

/-- Byte lane j of a little-endian word is the byte at the j-th rising address (20_memory R44). -/
theorem extractLsb'_wordOfBytes_little (b : Nat → Byte) {j : Nat} (hj : j < 4) :
    (wordOfBytes .little (b 0) (b 1) (b 2) (b 3)).extractLsb' (8 * j) 8 = b j := by
  rw [wordOfBytes]
  refine BitVec.eq_of_getLsbD_eq fun i hi => ?_
  simp only [BitVec.getLsbD_extractLsb', hi, decide_true, Bool.true_and, BitVec.getLsbD_append]
  interval_cases j
  · simp [hi]
  · simp [show ¬ 8 + i < 8 by omega, hi]
  · simp [show ¬ 16 + i < 8 by omega, show ¬ 16 + i - 8 < 8 by omega, show 16 + i - 8 - 8 = i by omega, hi]
  · simp [show ¬ 24 + i < 8 by omega, show ¬ 24 + i - 8 < 8 by omega, show ¬ 24 + i - 8 - 8 < 8 by omega,
      show 24 + i - 8 - 8 - 8 = i by omega]

/-- In a big-endian word the lanes count down from the top one (20_memory R44). -/
theorem extractLsb'_wordOfBytes_big (b : Nat → Byte) {j : Nat} (hj : j < 4) :
    (wordOfBytes .big (b 0) (b 1) (b 2) (b 3)).extractLsb' (24 - 8 * j) 8 = b j := by
  have hlane := extractLsb'_wordOfBytes_little (fun m => b (3 - m)) (show 3 - j < 4 by omega)
  rw [wordOfBytes_big, show 24 - 8 * j = 8 * (3 - j) by omega]
  simpa [show 3 - (3 - j) = j by omega] using hlane

/-- The byte `j` places after the start of frame word `k`, at `FRAME_BASE + 4*k + j` (20_memory R44). -/
def hostByte (s : State) (k j : Nat) : Byte := frameByte s (s.platform.frameBase + 4 * k + j)

/-- `F[k]` is the word of its four bytes in the host's order (20_memory R44). -/
theorem frameWord_eq_wordOfBytes (s : State) (k : Nat) :
    frameWord s k =
      wordOfBytes s.platform.byteOrder (hostByte s k 0) (hostByte s k 1) (hostByte s k 2) (hostByte s k 3) := rfl

/-- Settles O37: each lane of the word of four bytes is the byte of that place. -/
theorem frameWordsFromHostBytes : Obligations.FrameWordsFromHostBytes := by
  intro s k j _ hj
  refine ⟨fun hlittle => ?_, fun hbig => ?_⟩
  · rw [frameWord_eq_wordOfBytes, hlittle]
    exact extractLsb'_wordOfBytes_little (hostByte s k) hj
  · rw [frameWord_eq_wordOfBytes, hbig]
    exact extractLsb'_wordOfBytes_big (hostByte s k) hj

/-! ### Repeating a request -/

/-- The reads and the response in an answered state are determined by it (00_scope R12). -/
theorem answeredWith_inj {s : State} {ks ks' : List Nat} {r r' : Response} :
    answeredWith s ks r = answeredWith s ks' r' ↔ ks = ks' ∧ r = r' := by
  refine ⟨fun h => ⟨?_, ?_⟩, fun ⟨hks, hr⟩ => by rw [hks, hr]⟩
  · simpa using congrArg State.reads h
  · simpa using congrArg State.resp h

/-- Every request is answered, and its reads and response are a function of the frame: any state with the same frame
words gives the same ones (20_memory R49, R52). -/
theorem exec_eq_of_same_frame (i : Instr) (s : State) :
    ∃ ks r, ∀ s', (∀ k, frameWord s' k = frameWord s k) → exec i s' = .next (answeredWith s' ks r) := by
  have alike (s' : State) (hframe : ∀ k, frameWord s' k = frameWord s k) : AnswersAlike (exec i) s s' :=
    AgreeButIgnored.answersAlike_exec ⟨fun k _ => (hframe k).symm, by rw [hframe], by rw [hframe]⟩ i
  obtain ⟨ks, r, hs, -⟩ := alike s fun _ => rfl
  refine ⟨ks, r, fun s' hframe => ?_⟩
  obtain ⟨ks', r', hs₂, hs'⟩ := alike s' hframe
  rw [hs, Host.Outcome.next.injEq, answeredWith_inj] at hs₂
  obtain ⟨rfl, rfl⟩ := hs₂
  exact hs'

/-- Settles O29: answering changes no frame word, so the second run finds the frame of the first. -/
theorem repeatedRequestSameResponse : Obligations.RepeatedRequestSameResponse := by
  intro i s
  obtain ⟨ks, r, hanswer⟩ := exec_eq_of_same_frame i s
  have hfirst := hanswer s fun _ => rfl
  have hsecond := hanswer (answeredWith s ks r) fun k => frameWord_answeredWith k s ks r
  exact ⟨_, _, hfirst, hsecond, rfl, by simp, rfl, rfl⟩

end Sys2Proof.Machine
end

section
/-! PROOF. The low byte of a request word, `rsv` above `op`, selects the operation (30_encoding R67), and a word whose
low byte selects none is answered ILLEGAL_REQUEST with no read (R65, R66). -/

namespace Sys2Proof

/-! ### The low byte of a request word -/

/-- A request word is its four fields (30_encoding R60). -/
theorem packRequest_fields (w : Word) :
    packRequest (w.extractLsb' 20 12) (w.extractLsb' 8 12) (rsvField w) (opField w) = w := by
  rw [packRequest, rsvField, opField, BitVec.extractLsb'_append_extractLsb'_eq_extractLsb' (show 20 = 8 + 12 from rfl),
    BitVec.extractLsb'_append_extractLsb'_eq_extractLsb' (show 8 = 5 + 3 from rfl),
    BitVec.extractLsb'_append_extractLsb'_eq_extractLsb' (show 5 = 0 + 5 from rfl)]
  exact BitVec.extractLsb'_eq_self

/-- `req & 0xFF` is `rsv` above `op` (R60). -/
theorem lowByte_eq_fields (w : Word) : w &&& 0xFF#32 = (rsvField w ++ opField w).setWidth 32 := by
  have hpacked :=
    Laws.OpcodeByte.lowByte_packRequest (w.extractLsb' 20 12) (w.extractLsb' 8 12) (rsvField w) (opField w)
  rwa [packRequest_fields] at hpacked

/-- The low byte as a number: `op` has five bits below `rsv`. -/
theorem toNat_lowByte (w : Word) : (w &&& 0xFF#32).toNat = 32 * (rsvField w).toNat + (opField w).toNat := by
  have hop := (opField w).isLt
  have hrsv := (rsvField w).isLt
  rw [lowByte_eq_fields, BitVec.toNat_setWidth, BitVec.toNat_append, Nat.shiftLeft_eq, Nat.mul_comm,
    ← Nat.two_pow_add_eq_or_of_lt hop]
  omega

/-- The legal low bytes are those of `rsv` 0 and an `op` of the table (R67). -/
theorem lowByte_legal_iff (w : Word) :
    (w &&& 0xFF#32).toNat ≤ 0x11 ↔ rsvField w = 0 ∧ (opField w).toNat ≤ 0x11 := by
  have hzero : rsvField w = 0 ↔ (rsvField w).toNat = 0 := (BitVec.toNat_inj (y := 0#3)).symm
  rw [toNat_lowByte, hzero]
  omega

/-! ### The operation of a request word -/

/-- Each of the 18 operation codes selects the row of its own number (R61). -/
theorem tableMatch_decodeOp_of_legal {w : Word} (h : (opField w).toNat ≤ 0x11) :
    (decodeOp w).tableMatch = some (BitVec.ofNat 32 (opField w).toNat) := by
  rw [decodeOp]
  generalize (opField w).toNat = op at h
  interval_cases op <;> rfl

/-- Each of the 14 other codes selects a reserved row (R66). -/
theorem tableMatch_decodeOp_of_reserved {w : Word} (h : 0x12 ≤ (opField w).toNat) : (decodeOp w).tableMatch = none := by
  have hlt := (opField w).isLt
  rw [decodeOp]
  generalize (opField w).toNat = op at h hlt
  interval_cases op <;> rfl

/-- A word with nonzero `rsv` or a reserved `op` is none of the 18 operations (R65, R66). -/
theorem tableMatch_decode_of_reserved {w : Word} (h : rsvField w ≠ 0 ∨ 0x12 ≤ (opField w).toNat) :
    (decode w).tableMatch = none := by
  by_cases hrsv : rsvField w = 0
  · rw [decode, if_pos hrsv]
    exact tableMatch_decodeOp_of_reserved (h.resolve_left (not_not_intro hrsv))
  · rw [decode, if_neg hrsv]
    rfl

/-- The operation decoded is the one whose `match` is the low byte, if there is one (R67). -/
theorem tableMatch_decode (w : Word) :
    (decode w).tableMatch = if (w &&& 0xFF#32).toNat ≤ 0x11 then some (w &&& 0xFF#32) else none := by
  by_cases hlegal : (w &&& 0xFF#32).toNat ≤ 0x11
  · obtain ⟨hrsv, hop⟩ := (lowByte_legal_iff w).mp hlegal
    have hnum : (w &&& 0xFF#32).toNat = (opField w).toNat := by rw [toNat_lowByte, hrsv]; simp
    rw [if_pos hlegal, decode, if_pos hrsv, tableMatch_decodeOp_of_legal hop, ← hnum, BitVec.ofNat_toNat,
      BitVec.setWidth_eq]
  · rw [if_neg hlegal]
    refine tableMatch_decode_of_reserved ?_
    rw [lowByte_legal_iff, not_and_or] at hlegal
    exact hlegal.imp_right (by omega)

/-- A low byte by itself is a request of the 18 operations exactly up to 0x11 (R67). -/
theorem isSome_tableMatch_decode_ofNat {b : Nat} (hb : b < 256) :
    (decode (BitVec.ofNat 32 b)).tableMatch.isSome = decide (b < 18) := by
  have hbyte : (BitVec.ofNat 32 b &&& 0xFF#32).toNat = b :=
    calc (BitVec.ofNat 32 b &&& 0xFF#32).toNat = b % 2 ^ 32 &&& (2 ^ 8 - 1) := by simp
      _ = b % 2 ^ 32 % 2 ^ 8 := Nat.and_two_pow_sub_one_eq_mod _ 8
      _ = b := by omega
  rw [tableMatch_decode, hbyte]
  by_cases hlegal : b ≤ 0x11
  · simp [hlegal, show b < 18 by omega]
  · simp [hlegal, show ¬ b < 18 by omega]

/-- Settles O3: the low byte is `rsv` above `op`, and `decode` looks at nothing else to choose the row. -/
theorem lowByteSelectsTheOperation : Obligations.LowByteSelectsTheOperation := by
  refine ⟨tableMatch_decode, ?_⟩
  calc (List.range 256).filter (fun b => (decode (BitVec.ofNat 32 b)).tableMatch.isSome)
      = (List.range 256).filter (fun b => decide (b < 18)) :=
        List.filter_congr fun b hb => isSome_tableMatch_decode_ofNat (List.mem_range.mp hb)
    _ = List.range 18 := by decide

end Sys2Proof

namespace Sys2Proof.Machine

/-! ### Answering a reserved request -/

/-- Every row outside the 18 operations is answered ILLEGAL_REQUEST, result 0, with no read and nothing else changed
(30_encoding R65, R66, 60_exceptions R135). -/
theorem exec_of_tableMatch_none {i : Instr} (h : i.tableMatch = none) (s : State) :
    exec i s = .next (answeredWith s [] (errorResponse .illegalRequest)) := by
  cases i with
  | reservedOp12 | reservedOp14 | reservedOp18 | reservedRsv => exact raiseError_eq .illegalRequest s
  | _ => cases h

/-- Settles O22: a reserved word decodes to a reserved row, and each of these rows raises the one error. -/
theorem reservedRequestsAreIllegal : Obligations.ReservedRequestsAreIllegal :=
  ⟨fun _ s h => exec_of_tableMatch_none (tableMatch_decode_of_reserved h) s,
    fun s _ _ _ _ _ => ⟨exec_of_tableMatch_none rfl s, exec_of_tableMatch_none rfl s, exec_of_tableMatch_none rfl s,
      exec_of_tableMatch_none rfl s⟩⟩

end Sys2Proof.Machine
end

section
/-! PROOF. The sample family (40_sample_access R81 to R86): the word of an operation and its operands as arithmetic on
the word, the barrel shifter as the closed form of a sample, and from these what each of the four operations answers. -/

namespace Sys2Proof

/-! ### The operation and the operands of a request word, by arithmetic -/

/-- The low byte of a request word is `rsv` above `op` (30_encoding R60). -/
theorem toNat_mod_256 (w : Word) : w.toNat % 256 = 32 * (rsvField w).toNat + (opField w).toNat := by
  rw [← toNat_lowByte, BitVec.toNat_and]
  exact (Nat.and_two_pow_sub_one_eq_mod w.toNat 8).symm

/-- A low byte below 32 leaves `rsv` at 0 and is the `op` that selects the row (R61, R65). -/
theorem decode_of_lowByte {w : Word} {op : Nat} (h : w.toNat % 256 = op) (hop : op < 32) :
    decode w = decodeOp w ∧ (opField w).toNat = op := by
  rw [toNat_mod_256] at h
  have hrsv : rsvField w = 0 := BitVec.eq_of_toNat_eq (show (rsvField w).toNat = 0 by omega)
  exact ⟨by rw [decode, if_pos hrsv], by omega⟩

/-- The low 12 bits of a number, as a two's complement value (00_scope R10). -/
theorem toInt_ofNat_eq_signed12 (x : Nat) : (BitVec.ofNat 12 x).toInt = signed12 x := by
  rw [BitVec.toInt_eq_toNat_cond, BitVec.toNat_ofNat, signed12]
  split_ifs <;> omega

/-- `sext_12(req[19:8])` (30_encoding R62). -/
theorem idxOperand_eq_signed12 (w : Word) : idxOperand w = signed12 (w.toNat / 2 ^ 8) := by
  rw [idxOperand, BitVec.extractLsb', Nat.shiftRight_eq_div_pow, toInt_ofNat_eq_signed12]

/-- `sext_12(req[31:20])` (R63). -/
theorem fembOperand_eq_signed12 (w : Word) : fembOperand w = signed12 (w.toNat / 2 ^ 20) := by
  rw [fembOperand, BitVec.extractLsb', Nat.shiftRight_eq_div_pow, toInt_ofNat_eq_signed12]

section
variable {w : Word}

theorem decode_eq_getAdc (h : w.toNat % 256 = 0x00) : decode w = .getAdc (signed12 (w.toNat / 2 ^ 8)) := by
  obtain ⟨hdecode, hop⟩ := decode_of_lowByte h (by decide)
  simp only [hdecode, decodeOp, hop, idxOperand_eq_signed12]

theorem decode_eq_getU (h : w.toNat % 256 = 0x01) :
    decode w = .getU (signed12 (w.toNat / 2 ^ 20)) (signed12 (w.toNat / 2 ^ 8)) := by
  obtain ⟨hdecode, hop⟩ := decode_of_lowByte h (by decide)
  simp only [hdecode, decodeOp, hop, idxOperand_eq_signed12, fembOperand_eq_signed12]

theorem decode_eq_getV (h : w.toNat % 256 = 0x02) :
    decode w = .getV (signed12 (w.toNat / 2 ^ 20)) (signed12 (w.toNat / 2 ^ 8)) := by
  obtain ⟨hdecode, hop⟩ := decode_of_lowByte h (by decide)
  simp only [hdecode, decodeOp, hop, idxOperand_eq_signed12, fembOperand_eq_signed12]

theorem decode_eq_getX (h : w.toNat % 256 = 0x03) :
    decode w = .getX (signed12 (w.toNat / 2 ^ 20)) (signed12 (w.toNat / 2 ^ 8)) := by
  obtain ⟨hdecode, hop⟩ := decode_of_lowByte h (by decide)
  simp only [hdecode, decodeOp, hop, idxOperand_eq_signed12, fembOperand_eq_signed12]

end

end Sys2Proof

namespace Sys2Proof.Machine

/-! ### The barrel shifter is the closed form -/

/-- Bit j of the shifter's value is stream bit `14*n + j`: in the first word as far as that goes, then in the second
(10_state R30, 40_sample_access R80). -/
theorem getLsbD_shiftedSample (s : State) {n j : Nat} (hj : j < 14) :
    (shiftedSample s n).getLsbD j = (frameWord s (4 + (14 * n + j) / 32)).getLsbD ((14 * n + j) % 32) := by
  by_cases hfirst : 14 * n % 32 + j < 32
  · rw [show (14 * n + j) / 32 = 14 * n / 32 by omega, show (14 * n + j) % 32 = 14 * n % 32 + j by omega]
    by_cases hs : 18 < 14 * n % 32
    · simp [shiftedSample, hs, hj, show j < 32 - 14 * n % 32 by omega]
    · simp [shiftedSample, hs, hj]
  · rw [show 4 + (14 * n + j) / 32 = 5 + 14 * n / 32 by omega,
      show (14 * n + j) % 32 = j - (32 - 14 * n % 32) by omega]
    simp [shiftedSample, hj, show 18 < 14 * n % 32 by omega, show ¬ j < 32 - 14 * n % 32 by omega,
      show j < 32 by omega, BitVec.getLsbD_of_ge _ (14 * n % 32 + j) (show 32 ≤ 14 * n % 32 + j by omega)]

/-- The shifter gives `PB[14*n + 13 : 14*n]` (40_sample_access R85). -/
theorem shiftedSample_eq_sampleOf (s : State) {n : Nat} (hn : n ≤ 255) : shiftedSample s n = sampleOf (frameOf s) n := by
  refine BitVec.eq_of_getLsbD_eq fun j hj => ?_
  rw [getLsbD_shiftedSample s hj, sampleOf_getLsbD (frameOf s) hn hj, payloadBit_frameOf]

/-- Each packed value is the closed form of its own sample (R85). -/
theorem sampleOf_of_packed {F : Frame} {v : Fin 256 → Sample} (h : payloadValue F = packSamples v) (i : Fin 256) :
    sampleOf F i = v i := by
  obtain ⟨-, hbit⟩ := pack_sum 14 256 (fun i => (v i).toNat) (fun i => (v i).isLt)
  refine BitVec.eq_of_getLsbD_eq fun j hj => ?_
  rw [sampleOf, h, BitVec.getLsbD_ofNat, Nat.testBit_div_two_pow, Nat.add_comm j, packSamples, hbit i j hj]
  simp [hj, BitVec.getLsbD]

/-! ### What the sample family answers -/

/-- `SampleExtract(n)` on an index in range: the closed form, after the reads of the spec's table (R80, R85). -/
theorem sampleExtract_eq_sampleOf {n : Nat} (hn : n ≤ 255) (s : State) :
    sampleExtract n s = .sample (sampleOf (frameOf s) n) { s with reads := s.reads ++ sampleReads n } := by
  rw [sampleExtract, if_neg (by omega), Int.toNat_natCast, extractInRange_eq_sample hn, shiftedSample_eq_sampleOf s hn]

/-- An OK response with the value of a sample is the sample zero-extended (30_encoding R68). -/
theorem okResponse_toNat (v : Sample) : okResponse v.toNat = { status := .ok, result := v.setWidth 64 } := by
  rw [okResponse, BitVec.ofNat_toNat]

/-- What an operation of the family answers at a flat index in range (40_sample_access R81 to R84). -/
theorem readSample_eq_sampleOf {n : Int} (h0 : 0 ≤ n) (h1 : n ≤ 255) (s : State) :
    readSample n s =
      .next (answeredWith s (sampleReads n.toNat) (okResponse (sampleOf (frameOf s) n.toNat).toNat)) := by
  rw [readSample_of_inRange h0 h1, shiftedSample_eq_sampleOf s (by omega), okResponse_toNat]

theorem exec_getAdc (i : Int) (s : State) : exec (.getAdc i) s = readSample i s := rfl
theorem exec_getU (femb i : Int) (s : State) : exec (.getU femb i) s = readSample (128 * femb + i) s := rfl
theorem exec_getV (femb i : Int) (s : State) : exec (.getV femb i) s = readSample (128 * femb + 40 + i) s := rfl
theorem exec_getX (femb i : Int) (s : State) : exec (.getX femb i) s = readSample (128 * femb + 80 + i) s := rfl

/-- Every request of the family reads the sample at the word's flat index, and nothing else (R81 to R84). -/
theorem exec_decode_eq_readSample {w : Word} (h : w.toNat % 256 < 4) (s : State) :
    exec (decode w) s = readSample (flatIndexOf w) s := by
  have hop : w.toNat % 256 = 0 ∨ w.toNat % 256 = 1 ∨ w.toNat % 256 = 2 ∨ w.toNat % 256 = 3 := by omega
  rcases hop with hop | hop | hop | hop
  · simp only [decode_eq_getAdc hop, exec_getAdc, flatIndexOf, hop]
  · simp only [decode_eq_getU hop, exec_getU, flatIndexOf, hop]
  · simp only [decode_eq_getV hop, exec_getV, flatIndexOf, hop]
  · simp only [decode_eq_getX hop, exec_getX, flatIndexOf, hop]

/-- A word with nonzero `rsv` is answered ILLEGAL_REQUEST, whatever its `op` (30_encoding R65). -/
theorem exec_decode_of_rsv {w : Word} (h : rsvField w ≠ 0) (s : State) :
    exec (decode w) s = .next (answeredWith s [] (errorResponse .illegalRequest)) :=
  exec_of_tableMatch_none (tableMatch_decode_of_reserved (.inl h)) s

/-! ### The statements -/

/-- Settles O6: GET_ADC reads the sample at its operand. -/
theorem getAdcReturnsItsSample : Obligations.GetAdcReturnsItsSample := by
  refine ⟨fun _ => decode_eq_getAdc, fun i s h0 h1 => ?_, fun i s hn => ?_, fun _ s _ hrsv => exec_decode_of_rsv hrsv s⟩
  · rw [exec_getAdc, readSample_eq_sampleOf h0 h1]
  · rw [exec_getAdc, readSample_of_outOfRange hn]

/-- Settles O7: GET_U reads the sample at `128*femb + i`. -/
theorem getUReturnsTranslatedSample : Obligations.GetUReturnsTranslatedSample := by
  refine ⟨fun _ => decode_eq_getU, fun femb i n s hn h0 h1 => ?_, fun femb i n s hn hout => ?_,
    fun _ s _ hrsv => exec_decode_of_rsv hrsv s⟩
  · rw [exec_getU, ← hn, readSample_eq_sampleOf h0 h1]
  · rw [exec_getU, ← hn, readSample_of_outOfRange hout]

/-- Settles O8: GET_V reads the sample at `128*femb + 40 + i`. -/
theorem getVReturnsTranslatedSample : Obligations.GetVReturnsTranslatedSample := by
  refine ⟨fun _ => decode_eq_getV, fun femb i n s hn h0 h1 => ?_, fun femb i n s hn hout => ?_,
    fun _ s _ hrsv => exec_decode_of_rsv hrsv s⟩
  · rw [exec_getV, ← hn, readSample_eq_sampleOf h0 h1]
  · rw [exec_getV, ← hn, readSample_of_outOfRange hout]

/-- Settles O9: GET_X reads the sample at `128*femb + 80 + i`. -/
theorem getXReturnsTranslatedSample : Obligations.GetXReturnsTranslatedSample := by
  refine ⟨fun _ => decode_eq_getX, fun femb i n s hn h0 h1 => ?_, fun femb i n s hn hout => ?_,
    fun _ s _ hrsv => exec_decode_of_rsv hrsv s⟩
  · rw [exec_getX, ← hn, readSample_eq_sampleOf h0 h1]
  · rw [exec_getX, ← hn, readSample_of_outOfRange hout]

/-- Settles O10: the shifter agrees with the closed form bit by bit, and the closed form takes a packing apart. -/
theorem packedSamplesRoundTrip : Obligations.PackedSamplesRoundTrip := by
  refine ⟨fun n s hn => ⟨_, sampleExtract_eq_sampleOf hn s⟩, fun v s hpacked i => ?_⟩
  rw [exec_getAdc, readSample_eq_sampleOf (by omega) (by omega), Int.toNat_natCast, sampleOf_of_packed hpacked]

/-- A zero-extended sample has nothing above its 14 bits (40_sample_access R86). -/
theorem setWidth_sample_fits (v : Sample) :
    (v.setWidth 64).toNat ≤ 16383 ∧ (v.setWidth 64).extractLsb' 14 50 = 0 := by
  refine ⟨?_, BitVec.eq_of_getLsbD_eq fun j _ => ?_⟩
  · rw [BitVec.toNat_setWidth_of_le (by decide)]
    exact Nat.le_of_lt_succ v.isLt
  · simp

/-- Settles O13: an OK response of the family is a zero-extended sample. -/
theorem sampleResultsFitFourteenBits : Obligations.SampleResultsFitFourteenBits := by
  intro w s hw
  rw [exec_decode_eq_readSample hw]
  rcases readSample_cases (flatIndexOf w) s with ⟨herror, -⟩ | ⟨-, -, v, ks, hok, -, -⟩
  · exact ⟨_, _, herror, nofun⟩
  · exact ⟨_, _, hok, fun _ => setWidth_sample_fits v⟩

end Sys2Proof.Machine
end

section
/-! PROOF. Timestamp and fields (41_field_access R100 to R116): the word of an operation, a field as arithmetic on its
frame word, and from these that every request of the family is answered by the table of R101 to R113, which shows the
frame words its response can depend on. -/

namespace Sys2Proof

/-! ### The operation of a request word -/

/-- From 0x04 to 0x11 the low byte is the whole request: the operations have no operands in `req[31:8]` (30_encoding
R61, R64). -/
theorem decode_eq_decode_lowByte {w : Word} {op : Nat} (h : w.toNat % 256 = op) (h4 : 4 ≤ op := by decide)
    (h17 : op ≤ 17 := by decide) : decode w = decode (BitVec.ofNat 32 op) := by
  obtain ⟨hdecode, hop⟩ := decode_of_lowByte h (by omega)
  rw [hdecode, decodeOp, hop]
  clear h hop
  interval_cases op <;> rfl

end Sys2Proof

namespace Sys2Proof.Machine

/-! ### The field of a frame word, by arithmetic -/

/-- A field as a number: divide off the bits below it, keep its width (00_scope R9). -/
theorem toNat_fieldOf (w : Word) (lo width : Nat) : (fieldOf w lo width).toNat = w.toNat / 2 ^ lo % 2 ^ width := by
  refine Nat.eq_of_testBit_eq fun j => ?_
  rw [Nat.testBit_mod_two_pow, Nat.testBit_div_two_pow, Bool.and_comm, Nat.add_comm j]
  exact getLsbD_fieldOf w lo width j

/-- The field of all 32 bits is the word (41_field_access R107 to R109). -/
theorem fieldOf_whole (w : Word) : fieldOf w 0 32 = w :=
  BitVec.eq_of_toNat_eq (by rw [toNat_fieldOf, Nat.pow_zero, Nat.div_one, Nat.mod_eq_of_lt w.isLt])

/-- A field zero-extended to a result is the number of its bits (30_encoding R68). -/
theorem setWidth_fieldOf (w : Word) (hi lo : Nat) :
    (fieldOf w lo (hi + 1 - lo)).setWidth 64 = BitVec.ofNat 64 (bitsOf w hi lo) := by
  rw [bitsOf, ← toNat_fieldOf, BitVec.ofNat_toNat]

/-- Two halves as one number (41_field_access R114). -/
theorem toNat_append_words (hi lo : Word) : (hi ++ lo).toNat = lo.toNat + hi.toNat * 2 ^ 32 := by
  rw [BitVec.toNat_append, Nat.shiftLeft_eq, Nat.mul_comm, ← Nat.two_pow_add_eq_or_of_lt lo.isLt, Nat.mul_comm,
    Nat.add_comm]

/-- Two halves as the OR of the results that hold them (R114). -/
theorem append_words_eq_or (hi lo : Word) : hi ++ lo = hi.setWidth 64 <<< 32 ||| lo.setWidth 64 := by
  refine BitVec.eq_of_getLsbD_eq fun j hj => ?_
  rw [BitVec.getLsbD_append]
  by_cases hlow : j < 32
  · simp [hlow, hj]
  · simp [hlow, hj, BitVec.getLsbD_of_ge lo j (by omega)]

/-! ### What each operation answers -/

/-- Everything an operation that returns bits `hi` down to `lo` of word `k` does (41_field_access, opening). -/
theorem readField_eq_okResponse {k : Nat} (hk : k < 119) (hi lo : Nat) (s : State) :
    readField k lo (hi + 1 - lo) s = .next (answeredWith s [k] (okResponse (bitsOf (frameWord s k) hi lo))) := by
  rw [readField_eq hk, setWidth_fieldOf, okResponse]

/-- Everything an operation that returns word `k` does (R107 to R109). -/
theorem readField_whole {k : Nat} (hk : k < 119) (s : State) :
    readField k 0 32 s = .next (answeredWith s [k] { status := .ok, result := (frameWord s k).setWidth 64 }) := by
  rw [readField_eq hk, fieldOf_whole]

theorem exec_timestamp (s : State) :
    exec .timestamp s = .next (answeredWith s [2, 3] { status := .ok, result := frameWord s 3 ++ frameWord s 2 }) :=
  execTimestamp_eq s

theorem exec_timestamp1 (s : State) :
    exec .timestamp1 s = .next (answeredWith s [2] { status := .ok, result := (frameWord s 2).setWidth 64 }) :=
  readField_whole (k := 2) (by decide) s

theorem exec_timestamp2 (s : State) :
    exec .timestamp2 s = .next (answeredWith s [3] { status := .ok, result := (frameWord s 3).setWidth 64 }) :=
  readField_whole (k := 3) (by decide) s

/-! ### The table of the field operations -/

/-- The bits of the frame that a field operation returns. -/
structure FieldRow where
  word : Fin 119
  hi : Nat
  lo : Nat

/-- The table of 41_field_access R101 to R113 by `op`; the meanings and the specified answers are tied to it by
`exec_decode_eq_readField`, `answerOf_eq_fieldRow` and `readsOf_eq_fieldRow`. -/
def fieldRow : Nat → FieldRow
  | 5 => ⟨0, 7, 0⟩
  | 6 => ⟨0, 11, 8⟩
  | 7 => ⟨0, 14, 12⟩
  | 8 => ⟨0, 15, 15⟩
  | 9 => ⟨0, 17, 16⟩
  | 10 => ⟨0, 31, 18⟩
  | 11 => ⟨1, 31, 0⟩
  | 12 => ⟨2, 31, 0⟩
  | 13 => ⟨3, 31, 0⟩
  | 14 => ⟨116, 19, 0⟩
  | 15 => ⟨116, 31, 20⟩
  | 16 => ⟨117, 7, 0⟩
  | _ => ⟨118, 23, 0⟩

section
variable {w : Word} {op : Nat}

/-- A field operation runs the template on its row. -/
theorem exec_decode_eq_readField (h : w.toNat % 256 = op) (h5 : 5 ≤ op) (h17 : op ≤ 17) (s : State) :
    exec (decode w) s =
      readField (fieldRow op).word (fieldRow op).lo ((fieldRow op).hi + 1 - (fieldRow op).lo) s := by
  rw [decode_eq_decode_lowByte h (by omega) h17]
  clear h
  interval_cases op <;> rfl

/-- The answer 20_memory R52 gives a field operation is the bits of its row. -/
theorem answerOf_eq_fieldRow (h : w.toNat % 256 = op) (h5 : 5 ≤ op) (h17 : op ≤ 17) (F : Frame) :
    answerOf F w = okResponse (bitsOf (F (fieldRow op).word) (fieldRow op).hi (fieldRow op).lo) := by
  interval_cases op <;> simp only [answerOf, h, fieldRow]

/-- The one word 20_memory R47 lists for a field operation is that of its row. -/
theorem readsOf_eq_fieldRow (h : w.toNat % 256 = op) (h5 : 5 ≤ op) (h17 : op ≤ 17) :
    readsOf w = [((fieldRow op).word : Nat)] := by
  interval_cases op <;> simp only [readsOf, h, fieldRow] <;> rfl

end

/-! ### The family is answered as specified -/

section
variable {w : Word}

theorem readsOf_timestamp (h : w.toNat % 256 = 4) : readsOf w = [2, 3] := by
  simp only [readsOf, h]

theorem answerOf_timestamp (h : w.toNat % 256 = 4) (F : Frame) :
    answerOf F w = { status := .ok, result := F 3 ++ F 2 } := by
  simp only [answerOf, h, okResponse, ← toNat_append_words, BitVec.ofNat_toNat, BitVec.setWidth_eq]

/-- Every request of the family is answered with the response and the reads of 20_memory R52 and R47. -/
theorem exec_decode_eq_answerOf (h4 : 4 ≤ w.toNat % 256) (h17 : w.toNat % 256 ≤ 17) (s : State) :
    exec (decode w) s = .next (answeredWith s (readsOf w) (answerOf (frameOf s) w)) := by
  by_cases hts : w.toNat % 256 = 4
  · rw [decode_eq_decode_lowByte hts, readsOf_timestamp hts, answerOf_timestamp hts]
    exact exec_timestamp s
  · have h5 : 5 ≤ w.toNat % 256 := by omega
    rw [exec_decode_eq_readField rfl h5 h17, readField_eq_okResponse (Fin.isLt _), readsOf_eq_fieldRow rfl h5 h17,
      answerOf_eq_fieldRow rfl h5 h17]
    rfl

/-- The answer is the same in two frames that agree on the words read (41_field_access R116). -/
theorem answerOf_congr_of_reads (h4 : 4 ≤ w.toNat % 256) (h17 : w.toNat % 256 ≤ 17) {F F' : Frame}
    (h : ∀ k : Fin 119, (k : Nat) ∈ readsOf w → F k = F' k) : answerOf F w = answerOf F' w := by
  by_cases hts : w.toNat % 256 = 4
  · rw [readsOf_timestamp hts] at h
    rw [answerOf_timestamp hts, answerOf_timestamp hts, h 2 (by decide), h 3 (by decide)]
  · have h5 : 5 ≤ w.toNat % 256 := by omega
    rw [readsOf_eq_fieldRow rfl h5 h17] at h
    rw [answerOf_eq_fieldRow rfl h5 h17, answerOf_eq_fieldRow rfl h5 h17, h _ (List.mem_singleton.mpr rfl)]

end

/-! ### The statements -/

/-- Settles O17: TIMESTAMP is the concatenation of the two words, and the other two return one each. -/
theorem timestampArithmetic : Obligations.TimestampArithmetic := fun s =>
  ⟨_, _, _, exec_timestamp s, exec_timestamp2 s, exec_timestamp1 s, toNat_append_words _ _,
    Nat.le_pred_of_lt (BitVec.isLt _), append_words_eq_or _ _⟩

/-- Settles O28: the two words decode alike, and the specified answer looks only at the words read. -/
theorem fieldsDependOnNamedWordsOnly : Obligations.FieldsDependOnNamedWordsOnly := by
  intro w w' s s' h4 h17 hlow hagree
  have hdecode : decode w' = decode w :=
    (decode_eq_decode_lowByte hlow h4 h17).trans (decode_eq_decode_lowByte rfl h4 h17).symm
  have hanswer : answerOf (frameOf s) w = answerOf (frameOf s') w :=
    answerOf_congr_of_reads h4 h17 fun k hk => hagree k hk
  refine ⟨answerOf (frameOf s) w, exec_decode_eq_answerOf h4 h17 s, ?_⟩
  rw [hdecode, hanswer]
  exact exec_decode_eq_answerOf h4 h17 s'

/-- Settles O16: low byte 0x04 selects TIMESTAMP, and nonzero `rsv` is illegal in every word. -/
theorem timestampConcatenatesHalves : Obligations.TimestampConcatenatesHalves :=
  ⟨fun _ h => decode_eq_decode_lowByte h, exec_timestamp,
    fun _ s _ hrsv => exec_decode_of_rsv hrsv s⟩

/-- Settles O18: the low byte selects the operation, which runs the template on word 0 with the bits named. -/
theorem headerWordZeroFields : Obligations.HeaderWordZeroFields := by
  have field := readField_eq_okResponse (k := 0) (by decide)
  refine ⟨fun w => ⟨?_, ?_, ?_, ?_, ?_, ?_⟩, fun s =>
    ⟨field 7 0 s, field 11 8 s, field 14 12 s, field 15 15 s, field 17 16 s, field 31 18 s⟩⟩
  all_goals exact fun h => decode_eq_decode_lowByte h

/-- Settles O19: each operation runs the template on all 32 bits of its word. -/
theorem headerWholeWordFields : Obligations.HeaderWholeWordFields := by
  refine ⟨fun w => ⟨?_, ?_, ?_⟩, fun s =>
    ⟨readField_whole (k := 1) (by decide) s, exec_timestamp1 s, exec_timestamp2 s⟩⟩
  all_goals exact fun h => decode_eq_decode_lowByte h

/-- Settles O20: the template on words 116 to 118; the ignored bits lie outside the fields of the last two. -/
theorem trailerFields : Obligations.TrailerFields := by
  have field (k : Nat) (hk : k < 119) := readField_eq_okResponse hk
  refine ⟨fun w => ⟨?_, ?_, ?_, ?_⟩, fun s =>
    ⟨field 116 (by decide) 19 0 s, field 116 (by decide) 31 20 s, field 117 (by decide) 7 0 s,
      field 118 (by decide) 23 0 s⟩⟩
  all_goals exact fun h => decode_eq_decode_lowByte h

end Sys2Proof.Machine
end

section
/-! PROOF. The status of a response by priority (60_exceptions R134): the low byte of the request word falls in one of
three ranges, the reserved words, the sample family and the field operations, and each range answers in its own way. -/

namespace Sys2Proof.Machine

section
variable {w : Word}

/-- A low byte above 0x11 is illegal, whether by `rsv` or by `op` (30_encoding R65 to R67). -/
theorem exec_decode_of_reserved (h : 0x12 ≤ w.toNat % 256) (s : State) :
    exec (decode w) s = .next (answeredWith s [] (errorResponse .illegalRequest)) := by
  have hfields : rsvField w ≠ 0 ∨ 0x12 ≤ (opField w).toNat := by
    by_cases hrsv : rsvField w = 0
    · rw [toNat_mod_256, hrsv] at h
      exact .inr (by simpa using h)
    · exact .inl hrsv
  exact exec_of_tableMatch_none (tableMatch_decode_of_reserved hfields) s

/-- The answer specified for a field operation is never an error (60_exceptions R130). -/
theorem answerOf_status_of_field (h4 : 4 ≤ w.toNat % 256) (h17 : w.toNat % 256 ≤ 17) (F : Frame) :
    (answerOf F w).status = .ok := by
  by_cases hts : w.toNat % 256 = 4
  · rw [answerOf_timestamp hts]
  · rw [answerOf_eq_fieldRow rfl (by omega) h17]
    rfl

end

/-- Settles O23: the reserved words are illegal before any index is looked at, only the sample family has an index to
check, and every other request is OK. -/
theorem errorsByPriority : Obligations.ErrorsByPriority := by
  refine ⟨fun w s => ?_, exec_decode_of_reserved (by decide)⟩
  by_cases hreserved : 0x12 ≤ w.toNat % 256
  · exact ⟨_, _, exec_decode_of_reserved hreserved s, by rw [if_pos hreserved]; rfl⟩
  rw [if_neg hreserved]
  by_cases hsample : w.toNat % 256 < 4
  · rw [exec_decode_eq_readSample hsample]
    by_cases hout : flatIndexOf w < 0 ∨ 255 < flatIndexOf w
    · exact ⟨_, _, readSample_of_outOfRange hout s, by rw [if_pos ⟨hsample, hout⟩]; rfl⟩
    · exact ⟨_, _, readSample_of_inRange (by omega) (by omega) s, by rw [if_neg fun h => hout h.2]⟩
  · have h4 : 4 ≤ w.toNat % 256 := by omega
    have h17 : w.toNat % 256 ≤ 17 := by omega
    exact ⟨_, _, exec_decode_eq_answerOf h4 h17 s,
      by rw [if_neg fun h => hsample h.1]; exact answerOf_status_of_field h4 h17 _⟩

end Sys2Proof.Machine
end

section
/-! PROOF. Decoder and encoder undo each other (30_encoding R60 to R69), both by the four fields of a request word:
`decode` of a packed word is said once for each kind of row. -/

namespace Sys2Proof

/-! ### Decoding a packed word -/

section
variable (f i : BitVec 12) (o : BitVec 5)

/-- With `rsv` 0 the `op` selects the row (R61). -/
theorem decode_packRequest_zero : decode (packRequest f i 0 o) = decodeOp (packRequest f i 0 o) := by
  rw [decode, rsvField_packRequest, if_pos rfl]

/-- Nonzero `rsv` is kept with the `op` (R65). -/
theorem decode_packRequest_rsv {r : BitVec 3} (h : r ≠ 0) : decode (packRequest f i r o) = .reservedRsv r o := by
  rw [decode, rsvField_packRequest, opField_packRequest, if_neg h]

theorem decode_packRequest_getAdc : decode (packRequest f i 0 0) = .getAdc i.toInt := by
  simp only [decode_packRequest_zero, decodeOp, opField_packRequest, idxOperand_packRequest, fembOperand_packRequest]
  rfl

theorem decode_packRequest_getU : decode (packRequest f i 0 1) = .getU f.toInt i.toInt := by
  simp only [decode_packRequest_zero, decodeOp, opField_packRequest, idxOperand_packRequest, fembOperand_packRequest]
  rfl

theorem decode_packRequest_getV : decode (packRequest f i 0 2) = .getV f.toInt i.toInt := by
  simp only [decode_packRequest_zero, decodeOp, opField_packRequest, idxOperand_packRequest, fembOperand_packRequest]
  rfl

theorem decode_packRequest_getX : decode (packRequest f i 0 3) = .getX f.toInt i.toInt := by
  simp only [decode_packRequest_zero, decodeOp, opField_packRequest, idxOperand_packRequest, fembOperand_packRequest]
  rfl

/-- The low bits of a packed word are those of its `op` (R60). -/
theorem extractLsb'_packRequest {n : Nat} (hn : n ≤ 5) (r : BitVec 3) :
    (packRequest f i r o).extractLsb' 0 n = o.extractLsb' 0 n := by
  refine BitVec.eq_of_getLsbD_eq fun j hj => ?_
  simp only [packRequest, BitVec.getLsbD_extractLsb', BitVec.getLsbD_append]
  simp [hj, show j < 5 by omega]

/-- From `op` 0x04 on, the operand fields are ignored (R64). -/
theorem decode_packRequest_of_no_operands (h : 4 ≤ o.toNat) :
    decode (packRequest f i 0 o) = decode (packPlain o) := by
  have hlt := o.isLt
  simp only [packPlain, decode_packRequest_zero, decodeOp, opField_packRequest,
    extractLsb'_packRequest _ _ _ (show 1 ≤ 5 by decide), extractLsb'_packRequest _ _ _ (show 2 ≤ 5 by decide),
    extractLsb'_packRequest _ _ _ (show 3 ≤ 5 by decide)]
  generalize o.toNat = op at h hlt
  interval_cases op <;> simp

end

/-! ### The encoding of a request is decoded to it -/

/-- Settles O1: the operands survive their 12 bits, and every row is told by its `op` and `rsv`. -/
theorem decodeInvertsEncode : Obligations.DecodeInvertsEncode := by
  intro i hwf
  cases i with
  | getAdc i => rw [encode, decode_packRequest_getAdc, toInt_ofInt_of_fits hwf]
  | getU femb i =>
    obtain ⟨hfemb, hi⟩ := Bool.and_eq_true_iff.mp hwf
    rw [encode, decode_packRequest_getU, toInt_ofInt_of_fits hfemb, toInt_ofInt_of_fits hi]
  | getV femb i =>
    obtain ⟨hfemb, hi⟩ := Bool.and_eq_true_iff.mp hwf
    rw [encode, decode_packRequest_getV, toInt_ofInt_of_fits hfemb, toInt_ofInt_of_fits hi]
  | getX femb i =>
    obtain ⟨hfemb, hi⟩ := Bool.and_eq_true_iff.mp hwf
    rw [encode, decode_packRequest_getX, toInt_ofInt_of_fits hfemb, toInt_ofInt_of_fits hi]
  | reservedOp12 low => revert low; decide
  | reservedOp14 low => revert low; decide
  | reservedOp18 low => revert low; decide
  | reservedRsv rsv op => exact decode_packRequest_rsv 0 0 op (of_decide_eq_true hwf)
  | _ => decide

/-! ### A request word is recovered but for the ignored fields -/

/-- Masking a packed word masks its fields. -/
theorem packRequest_and (f i f' i' : BitVec 12) (r r' : BitVec 3) (o o' : BitVec 5) :
    packRequest f i r o &&& packRequest f' i' r' o' = packRequest (f &&& f') (i &&& i') (r &&& r') (o &&& o') := by
  simp only [packRequest]
  rw [← BitVec.and_append, ← BitVec.and_append, ← BitVec.and_append]

section
variable (f i : BitVec 12) (r : BitVec 3) (o : BitVec 5)

/-- The mask of a row without operands keeps `req[7:0]` (30_encoding R64). -/
theorem packRequest_and_lowByte : packRequest f i r o &&& 0xFF = packRequest 0 0 r o := by
  rw [show (0xFF : Word) = packRequest 0 0 (BitVec.allOnes _) (BitVec.allOnes _) by decide, packRequest_and]
  simp only [BitVec.and_allOnes, BitVec.ofNat_eq_ofNat, BitVec.and_zero]

/-- The mask of GET_ADC keeps `req[19:0]` (R64). -/
theorem packRequest_and_idx : packRequest f i r o &&& 0xFFFFF = packRequest 0 i r o := by
  have hmask : (0xFFFFF : Word) = packRequest 0 (BitVec.allOnes _) (BitVec.allOnes _) (BitVec.allOnes _) := by decide
  rw [hmask, packRequest_and]
  simp only [BitVec.and_allOnes, BitVec.ofNat_eq_ofNat, BitVec.and_zero]

/-- The mask of the wrappers keeps the whole word (R63). -/
theorem packRequest_and_all : packRequest f i r o &&& 0xFFFFFFFF = packRequest f i r o := by
  have hmask : (0xFFFFFFFF : Word) =
      packRequest (BitVec.allOnes _) (BitVec.allOnes _) (BitVec.allOnes _) (BitVec.allOnes _) := by decide
  rw [hmask, packRequest_and]
  simp only [BitVec.and_allOnes]

end

/-- A request word's decoding is well formed, and encodes to the bits it takes notice of. -/
def RecoveredByEncode (w : Word) : Prop :=
  (decode w).wellFormed = true ∧ encode (decode w) = w &&& (decode w).noticedBits

/-- The rows without operands, decided on their 28 `op` codes. -/
theorem encode_decode_packPlain :
    ∀ o : BitVec 5, 4 ≤ o.toNat → (decode (packPlain o)).wellFormed = true ∧
      encode (decode (packPlain o)) = packPlain o ∧ (decode (packPlain o)).noticedBits = 0xFF := by
  decide

theorem recoveredByEncode_of_no_operands (f i : BitVec 12) {o : BitVec 5} (h : 4 ≤ o.toNat) :
    RecoveredByEncode (packRequest f i 0 o) := by
  obtain ⟨hwf, hencode, hmask⟩ := encode_decode_packPlain o h
  rw [RecoveredByEncode, decode_packRequest_of_no_operands f i o h, hmask, packRequest_and_lowByte]
  exact ⟨hwf, hencode⟩

theorem recoveredByEncode_of_rsv (f i : BitVec 12) {r : BitVec 3} (o : BitVec 5) (h : r ≠ 0) :
    RecoveredByEncode (packRequest f i r o) := by
  rw [RecoveredByEncode, decode_packRequest_rsv f i o h]
  exact ⟨decide_eq_true h, (packRequest_and_lowByte f i r o).symm⟩

/-- The sample family: the operand fields hold the decoded operands (R62, R63). -/
theorem recoveredByEncode_of_sample (f i : BitVec 12) {o : BitVec 5} (h : o.toNat < 4) :
    RecoveredByEncode (packRequest f i 0 o) := by
  have hop : o = 0 ∨ o = 1 ∨ o = 2 ∨ o = 3 := by revert o; decide
  have hf := fitsOperand_toInt f
  have hi := fitsOperand_toInt i
  rcases hop with rfl | rfl | rfl | rfl
  · rw [RecoveredByEncode, decode_packRequest_getAdc, Instr.noticedBits, packRequest_and_idx]
    simp [Instr.wellFormed, encode, hi]
  · rw [RecoveredByEncode, decode_packRequest_getU, Instr.noticedBits, packRequest_and_all]
    simp [Instr.wellFormed, encode, hf, hi]
  · rw [RecoveredByEncode, decode_packRequest_getV, Instr.noticedBits, packRequest_and_all]
    simp [Instr.wellFormed, encode, hf, hi]
  · rw [RecoveredByEncode, decode_packRequest_getX, Instr.noticedBits, packRequest_and_all]
    simp [Instr.wellFormed, encode, hf, hi]

/-- Settles O2: every word is packed of its fields, and falls in one of the three kinds of rows. -/
theorem encodeKeepsNoticedBits : Obligations.EncodeKeepsNoticedBits := by
  intro w
  rw [← packRequest_fields w]
  by_cases hrsv : rsvField w = 0
  · rw [hrsv]
    rcases Nat.lt_or_ge (opField w).toNat 4 with hop | hop
    · exact recoveredByEncode_of_sample _ _ hop
    · exact recoveredByEncode_of_no_operands _ _ hop
  · exact recoveredByEncode_of_rsv _ _ _ hrsv

/-- Settles O4: each word is a closed term that the decoder evaluates. -/
theorem specRequestWordsDecode : Obligations.SpecRequestWordsDecode := by
  unfold Obligations.SpecRequestWordsDecode
  decide

end Sys2Proof

namespace Sys2Proof.Machine

/-! ### The response port -/

/-- The status codes differ (30_encoding R68). -/
theorem statusCode_inj {st st' : Status} (h : statusCode st = statusCode st') : st = st' := by
  cases st <;> cases st' <;> simp [statusCode] at h ⊢

/-- The status stands above the 64 bits of the result (10_state R24). -/
theorem responseBits_fields (r : Response) :
    (responseBits r).extractLsb' 64 2 = statusCode r.status ∧ (responseBits r).extractLsb' 0 64 = r.result :=
  ⟨BitVec.extractLsb'_append_eq_left, BitVec.extractLsb'_append_eq_right⟩

/-- Settles O25: both fields of a response can be taken out of its bits. -/
theorem statusCodesOfResponses : Obligations.StatusCodesOfResponses := by
  refine ⟨rfl, rfl, rfl, rfl, fun r r' h => ?_⟩
  obtain ⟨hstatus, hresult⟩ := responseBits_fields r
  obtain ⟨hstatus', hresult'⟩ := responseBits_fields r'
  rw [h] at hstatus hresult
  cases r; cases r'
  rw [Response.mk.injEq]
  exact ⟨statusCode_inj (hstatus.symm.trans hstatus'), hresult.symm.trans hresult'⟩

end Sys2Proof.Machine
end

section
/-! PROOF. What a sample is (40_sample_access R85 to R92): bits of the payload stream and a funnel shift of the two-word
window, read from payload words only, and the same for an index of GET_ADC as for its channel of a wrapper. -/

namespace Sys2Proof.Machine

/-- Settles O11: the sample is the closed form, whose bits are the stream's. -/
theorem sampleBitsAreStreamBits : Obligations.SampleBitsAreStreamBits :=
  fun _ _ s hn hj => ⟨_, _, sampleExtract_eq_sampleOf hn s, sampleOf_getLsbD (frameOf s) hn hj⟩

/-! ### The funnel shift -/

/-- Bit j of a funnel shift is a bit of the low word as far as that goes, then of the high one. -/
theorem getLsbD_funnelShift (w1 w0 : Word) (p : Nat) {j : Nat} (hj : j < 14) :
    (((w1 ++ w0) >>> p).setWidth 14).getLsbD j =
      if p + j < 32 then w0.getLsbD (p + j) else w1.getLsbD (p + j - 32) := by
  rw [BitVec.getLsbD_setWidth, BitVec.getLsbD_ushiftRight, BitVec.getLsbD_append]
  simp [hj]

/-- A sample that straddles is the funnel shift of its two words (40_sample_access R92). -/
theorem shiftedSample_eq_funnelShift (s : State) (n : Nat) :
    shiftedSample s n =
      ((frameWord s (5 + 14 * n / 32) ++ frameWord s (4 + 14 * n / 32)) >>> (14 * n % 32)).setWidth 14 := by
  refine BitVec.eq_of_getLsbD_eq fun j hj => ?_
  rw [getLsbD_shiftedSample s hj, getLsbD_funnelShift _ _ _ hj]
  by_cases hfirst : 14 * n % 32 + j < 32
  · rw [if_pos hfirst, show (14 * n + j) / 32 = 14 * n / 32 by omega,
      show (14 * n + j) % 32 = 14 * n % 32 + j by omega]
  · rw [if_neg hfirst, show 4 + (14 * n + j) / 32 = 5 + 14 * n / 32 by omega,
      show (14 * n + j) % 32 = 14 * n % 32 + j - 32 by omega]

/-- Without a straddle the shift takes no bit of the second word (R92). -/
theorem funnelShift_of_not_straddles {n : Nat} (h : straddles n = false) (w1 w1' w0 : Word) :
    ((w1 ++ w0) >>> (14 * n % 32)).setWidth 14 = ((w1' ++ w0) >>> (14 * n % 32)).setWidth 14 := by
  rw [straddles_iff, decide_eq_false_iff_not] at h
  refine BitVec.eq_of_getLsbD_eq fun j hj => ?_
  rw [getLsbD_funnelShift _ _ _ hj, getLsbD_funnelShift _ _ _ hj, if_pos (by omega), if_pos (by omega)]

/-- Settles O12: the shifter is the funnel shift of the window, and without a straddle any second word serves. -/
theorem extractorIsFunnelShift : Obligations.ExtractorIsFunnelShift := by
  intro n s hn
  have hvalue := sampleExtract_eq_sampleOf hn s
  rw [← shiftedSample_eq_sampleOf s hn] at hvalue
  exact ⟨_, _, hvalue, fun _ => shiftedSample_eq_funnelShift s n, fun hs w1 =>
    (shiftedSample_eq_funnelShift s n).trans (funnelShift_of_not_straddles hs _ w1 _)⟩

/-! ### Reads, and the wrappers -/

/-- Settles O14: the extractor ends out of range or in a sample after reads of payload words. -/
theorem sampleReadsStayInPayload : Obligations.SampleReadsStayInPayload := by
  intro n s
  rcases sampleExtract_cases n s with ⟨hout, -⟩ | ⟨-, -, v, ks, hsample, -, hks⟩
  · rw [hout]
    exact ⟨nofun, nofun⟩
  · rw [hsample]
    refine ⟨nofun, fun v' t h => ?_⟩
    obtain ⟨-, rfl⟩ := Extraction.sample.inj h
    exact ⟨ks, rfl, hks⟩

/-- Settles O15: the wrappers translate their index and read that sample, and the translation is inverted by division
by the 128 samples of a board. -/
theorem wrappersPartitionTheSamples : Obligations.WrappersPartitionTheSamples := by
  refine ⟨fun femb i s => ⟨rfl, rfl, rfl⟩, fun n s _ => ⟨fun _ => ?_, fun hlo _ => ?_, fun hlo => ?_⟩⟩
  · rw [exec_getAdc, exec_getU, show 128 * ((n / 128 : Nat) : Int) + ((n % 128 : Nat) : Int) = n by omega]
  · rw [exec_getAdc, exec_getV, show 128 * ((n / 128 : Nat) : Int) + 40 + ((n % 128 - 40 : Nat) : Int) = n by omega]
  · rw [exec_getAdc, exec_getX, show 128 * ((n / 128 : Nat) : Int) + 80 + ((n % 128 - 80 : Nat) : Int) = n by omega]

end Sys2Proof.Machine
end

section
/-! PROOF. The fields of a word put it together again (41_field_access R115): a field ORed above the field below it is
the field of both their bits. -/

namespace Sys2Proof.Machine

/-- The result an operation returns for a field of a word (41_field_access, opening). -/
def fieldResult (w : Word) (lo width : Nat) : Result := (fieldOf w lo width).setWidth 64

theorem getLsbD_fieldResult (w : Word) (lo width : Nat) {j : Nat} (hj : j < 64) :
    (fieldResult w lo width).getLsbD j = (w.getLsbD (lo + j) && decide (j < width)) := by
  rw [fieldResult, BitVec.getLsbD_setWidth, getLsbD_fieldOf]
  simp [hj]

/-- The low bits of a word, ORed with the field that begins where they end. -/
theorem fieldResult_or_shiftLeft (w : Word) (lo width : Nat) :
    fieldResult w 0 lo ||| fieldResult w lo width <<< lo = fieldResult w 0 (lo + width) := by
  refine BitVec.eq_of_getLsbD_eq fun j hj => ?_
  rw [BitVec.getLsbD_or, BitVec.getLsbD_shiftLeft, getLsbD_fieldResult _ _ _ hj, getLsbD_fieldResult _ _ _ hj,
    getLsbD_fieldResult _ _ _ (show j - lo < 64 by omega)]
  by_cases hlow : j < lo
  · simp [hlow, show j < lo + width by omega]
  · simp [hlow, hj, show lo + (j - lo) = j by omega, show j - lo < width ↔ j < lo + width by omega]

/-- The field of all 32 bits is the word. -/
theorem fieldResult_whole (w : Word) : fieldResult w 0 32 = w.setWidth 64 := by
  rw [fieldResult, fieldOf_whole]

/-- A field at the low end of a word is those bits (00_scope R9). -/
theorem fieldResult_low (w : Word) (width : Nat) :
    fieldResult w 0 width = (w.extractLsb' 0 width).setWidth 64 := by
  refine BitVec.eq_of_getLsbD_eq fun j hj => ?_
  rw [getLsbD_fieldResult _ _ _ hj, BitVec.getLsbD_setWidth, BitVec.getLsbD_extractLsb']
  simp [hj, Bool.and_comm]

/-- Everything a field operation does, by its result. -/
theorem readField_eq_fieldResult {k : Nat} (hk : k < 119) (lo width : Nat) (s : State) :
    readField k lo width s =
      .next (answeredWith s [k] { status := .ok, result := fieldResult (frameWord s k) lo width }) :=
  readField_eq hk lo width s

/-- Settles O21: the fields of words 0 and 116 lie side by side, and each of the others is the low end of its word. -/
theorem fieldsRecoverTheWords : Obligations.FieldsRecoverTheWords := by
  intro s
  have field (k : Nat) (hk : k < 119) (lo width : Nat) := readField_eq_fieldResult hk lo width s
  refine ⟨_, _, _, _, _, _, _, _, _, _, _, _, _, field 0 (by decide) 0 8, field 0 (by decide) 8 4,
    field 0 (by decide) 12 3, field 0 (by decide) 15 1, field 0 (by decide) 16 2, field 0 (by decide) 18 14,
    field 1 (by decide) 0 32, field 2 (by decide) 0 32, field 3 (by decide) 0 32, field 116 (by decide) 0 20,
    field 116 (by decide) 20 12, field 117 (by decide) 0 8, field 118 (by decide) 0 24, ?_, fieldResult_whole _,
    fieldResult_whole _, fieldResult_whole _, ?_, fieldResult_low _ _, fieldResult_low _ _⟩
  · rw [fieldResult_or_shiftLeft _ 8 4, fieldResult_or_shiftLeft _ 12 3, fieldResult_or_shiftLeft _ 15 1,
      fieldResult_or_shiftLeft _ 16 2, fieldResult_or_shiftLeft _ 18 14, fieldResult_whole]
  · rw [fieldResult_or_shiftLeft _ 20 12, fieldResult_whole]

end Sys2Proof.Machine
end

section
/-! PROOF. Every request is answered (60_exceptions R133, R135), and every request word as 20_memory R52 and R47 say. -/

namespace Sys2Proof.Machine

/-! ### Every request is one of four shared operations -/

/-- Whatever the request, answering it is the sample extractor, the field template, TIMESTAMP or the one error. -/
theorem exec_cases (i : Instr) :
    (∃ n, exec i = readSample n) ∨ (∃ k lo width, k < 119 ∧ exec i = readField k lo width) ∨
    exec i = execTimestamp ∨ exec i = raiseError .illegalRequest := by
  cases i with
  | getAdc i => exact .inl ⟨flatIndexAdc i, rfl⟩
  | getU femb i => exact .inl ⟨flatIndexU femb i, rfl⟩
  | getV femb i => exact .inl ⟨flatIndexV femb i, rfl⟩
  | getX femb i => exact .inl ⟨flatIndexX femb i, rfl⟩
  | timestamp => exact .inr (.inr (.inl rfl))
  | crate => exact .inr (.inl ⟨0, 0, 8, by decide, rfl⟩)
  | frameVersion => exact .inr (.inl ⟨0, 8, 4, by decide, rfl⟩)
  | slot => exact .inr (.inl ⟨0, 12, 3, by decide, rfl⟩)
  | fiber => exact .inr (.inl ⟨0, 15, 1, by decide, rfl⟩)
  | fembValid => exact .inr (.inl ⟨0, 16, 2, by decide, rfl⟩)
  | statusCode1 => exact .inr (.inl ⟨0, 18, 14, by decide, rfl⟩)
  | statusCode2 => exact .inr (.inl ⟨1, 0, 32, by decide, rfl⟩)
  | timestamp1 => exact .inr (.inl ⟨2, 0, 32, by decide, rfl⟩)
  | timestamp2 => exact .inr (.inl ⟨3, 0, 32, by decide, rfl⟩)
  | crc20 => exact .inr (.inl ⟨116, 0, 20, by decide, rfl⟩)
  | flexWord12 => exact .inr (.inl ⟨116, 20, 12, by decide, rfl⟩)
  | eof => exact .inr (.inl ⟨117, 0, 8, by decide, rfl⟩)
  | flexWord24 => exact .inr (.inl ⟨118, 0, 24, by decide, rfl⟩)
  | reservedOp12 | reservedOp14 | reservedOp18 | reservedRsv => exact .inr (.inr (.inr rfl))

/-- Settles O24: each of the four answers, with at most two reads. -/
theorem noRequestStops : Obligations.NoRequestStops := by
  intro i s
  rcases exec_cases i with ⟨n, hexec⟩ | ⟨k, lo, width, hk, hexec⟩ | hexec | hexec <;> rw [hexec]
  · rcases readSample_cases n s with ⟨h, -⟩ | ⟨-, -, v, ks, h, hlength, hks⟩
    · exact ⟨_, _, h, properResponse_error nofun, by simp, by simp⟩
    · exact ⟨_, _, h, properResponse_ok _, hlength, fun k hk => by have := hks k hk; omega⟩
  · exact ⟨_, _, readField_eq hk lo width s, properResponse_ok _, by simp, by simpa using hk⟩
  · exact ⟨_, _, execTimestamp_eq s, properResponse_ok _, by simp, by simp⟩
  · exact ⟨_, _, raiseError_eq .illegalRequest s, properResponse_error nofun, by simp, by simp⟩

/-! ### The specified answer, by the range of the low byte -/

section
variable {w : Word}

theorem answerOf_of_sample (h : w.toNat % 256 < 4) (F : Frame) :
    answerOf F w =
      if 0 ≤ flatIndexOf w ∧ flatIndexOf w ≤ 255 then okResponse (sampleOf F (flatIndexOf w).toNat).toNat
      else errorResponse .indexOutOfRange := by
  unfold answerOf
  split
  iterate 14 next hop => omega
  exact if_pos h

theorem readsOf_of_sample (h : w.toNat % 256 < 4) :
    readsOf w = if 0 ≤ flatIndexOf w ∧ flatIndexOf w ≤ 255 then sampleReads (flatIndexOf w).toNat else [] := by
  unfold readsOf
  split
  iterate 14 next hop => omega
  exact if_pos h

theorem answerOf_of_reserved (h : 0x12 ≤ w.toNat % 256) (F : Frame) :
    answerOf F w = errorResponse .illegalRequest := by
  unfold answerOf
  split
  iterate 14 next hop => omega
  exact if_neg (by omega)

theorem readsOf_of_reserved (h : 0x12 ≤ w.toNat % 256) : readsOf w = [] := by
  unfold readsOf
  split
  iterate 14 next hop => omega
  exact if_neg (by omega)

end

/-- Settles O26: the sample family by the closed form, the fields by their table, and all other words as illegal. -/
theorem everyRequestIsAnsweredAsSpecified : Obligations.EveryRequestIsAnsweredAsSpecified := by
  intro w s
  by_cases hsample : w.toNat % 256 < 4
  · rw [exec_decode_eq_readSample hsample, answerOf_of_sample hsample, readsOf_of_sample hsample]
    by_cases hin : 0 ≤ flatIndexOf w ∧ flatIndexOf w ≤ 255
    · rw [if_pos hin, if_pos hin, readSample_eq_sampleOf hin.1 hin.2]
    · rw [if_neg hin, if_neg hin, readSample_of_outOfRange (by omega)]
  by_cases hreserved : 0x12 ≤ w.toNat % 256
  · rw [exec_decode_of_reserved hreserved, answerOf_of_reserved hreserved, readsOf_of_reserved hreserved]
  · exact exec_decode_eq_answerOf (by omega) (by omega) s

end Sys2Proof.Machine
end

section
/-! PROOF. One step of an admitted machine: the answer it delivers (10_state R24, 20_memory R52, 70_reset R153), and
from these every schedule of answers. -/

namespace Sys2Proof.Machine

/-! ### What a step does -/

/-- A step that takes a request runs it and delivers its response. -/
theorem step_of_fetch_some {s t : State} {p : Pending} (hp : platformRefusal s.platform = none)
    (hf : fetch s = some (p, t)) : step s = deliverOutcome p (exec (decode p.word) t) := by
  simp only [step, hp, hf]

/-- A step that takes none is a turn of the environment, or idle. -/
theorem step_of_fetch_none {s : State} (hp : platformRefusal s.platform = none) (hf : fetch s = none) :
    step s = runTurn s := by
  simp only [step, hp, hf]

/-- The state after a response `r` has gone out on `port`: the turn is over, the requests `left` stay in flight, the
words `ks` have been read, and `draws` free draws are counted (10_state R24). -/
def deliveredState (s : State) (left : List Pending) (ks : List Nat) (port : Nat) (r : Response) (draws : Nat) :
    State :=
  { s with
    turns := s.turns.tail
    inFlight := left
    reads := ks
    resp := some r
    responses := s.responses ++ [(port, r)]
    draws := draws }

/-- The state after request `p` is answered with the response `r` of its meaning, the requests `left` staying in flight
(10_state R24, 70_reset R153). -/
def answeredState (s : State) (p : Pending) (left : List Pending) (r : Response) : State :=
  deliveredState s left (readsOf p.word) p.port (deliveredResponse p s.draws r)
    (if p.overlapped ∧ r.status = .ok then s.draws + 1 else s.draws)

@[simp] theorem answeredState_mem (s : State) (p : Pending) (left : List Pending) (r : Response) :
    (answeredState s p left r).mem = s.mem := rfl
@[simp] theorem answeredState_platform (s : State) (p : Pending) (left : List Pending) (r : Response) :
    (answeredState s p left r).platform = s.platform := rfl
@[simp] theorem answeredState_turns (s : State) (p : Pending) (left : List Pending) (r : Response) :
    (answeredState s p left r).turns = s.turns.tail := rfl
@[simp] theorem answeredState_inFlight (s : State) (p : Pending) (left : List Pending) (r : Response) :
    (answeredState s p left r).inFlight = left := rfl
@[simp] theorem answeredState_responses (s : State) (p : Pending) (left : List Pending) (r : Response) :
    (answeredState s p left r).responses = s.responses ++ [(p.port, deliveredResponse p s.draws r)] := rfl
@[simp] theorem frameOf_answeredState (s : State) (p : Pending) (left : List Pending) (r : Response) :
    frameOf (answeredState s p left r) = frameOf s := rfl

/-- The whole step in which the block answers the oldest request of the port whose turn it is, or, with no turn left, of
all: the response is the one specified, as it is delivered. -/
theorem step_of_oldest {s : State} {before after : List Pending} {p : Pending}
    (hp : platformRefusal s.platform = none) (hi : s.inFlight = before ++ p :: after)
    (ht : (∃ rest, s.turns = .answer p.port :: rest ∧ ∀ q ∈ before, q.port ≠ p.port) ∨ (s.turns = [] ∧ before = [])) :
    step s = .next (answeredState s p (before ++ after) (answerOf (frameOf s) p.word)) := by
  rw [step_of_fetch_some hp (fetch_of_oldest hi ht), everyRequestIsAnsweredAsSpecified]
  exact congrArg Host.Outcome.next (deliver_answeredWith p _ _ _)

/-- Settles O5: `step` on a request that `fetch` takes, and the one `withFetchWord` has it take. -/
theorem stepRunsDecodedRequest : Obligations.StepRunsDecodedRequest := by
  refine ⟨fun s t p i hp hf hi _ => hi ▸ step_of_fetch_some hp hf, fun s w hp => ?_⟩
  have hword : BitVec.ofNat 32 (w.toNat % 2 ^ 32) = w := by
    rw [Nat.mod_eq_of_lt w.isLt, BitVec.ofNat_toNat, BitVec.setWidth_eq]
  rw [State.withFetchWord, hword]
  exact step_of_fetch_some hp rfl

/-! ### Answer turns -/

/-- Settles O30: the oldest request of the port, its response delivered as specified. -/
theorem answerTurnDeliversOldest : Obligations.AnswerTurnDeliversOldest := by
  intro s port rest p ps hp hturns htake hover
  obtain ⟨before, after, hi, rfl, rfl, hbefore⟩ := takeOldest_some htake
  refine ⟨rfl, ?_⟩
  rw [step_of_oldest hp hi (.inl ⟨rest, hturns, hbefore⟩)]
  simp [answeredState, deliveredState, hturns, hover]

/-- Every answer specified is proper, since it is the one the block gives (30_encoding R68, 60_exceptions R133). -/
theorem properResponse_answerOf (s : State) (w : Word) : properResponse (answerOf (frameOf s) w) := by
  obtain ⟨ks, r, hexec, hproper, -⟩ := noRequestStops (decode w) s
  rw [everyRequestIsAnsweredAsSpecified, Host.Outcome.next.injEq, answeredWith_inj] at hexec
  exact hexec.2 ▸ hproper

/-- A proper response that is not OK is its status with result 0. -/
theorem eq_errorResponse_of_proper {r : Response} (h : properResponse r) (herror : r.status ≠ .ok) :
    r = errorResponse r.status :=
  congrArg (Response.mk r.status) (h.2 herror)

/-- Settles O36: the status decides whether the delivered result is the draw or 0. -/
theorem overlappedResultIsFree : Obligations.OverlappedResultIsFree := by
  intro s p before after hp hi hover ht
  rw [step_of_oldest hp hi ht]
  refine ⟨fun hok => ?_, fun herror => ?_⟩
  · simp [answeredState, deliveredState, deliveredResponse, hover, hok]
  · rw [← eq_errorResponse_of_proper (properResponse_answerOf s p.word) herror]
    simp [answeredState, deliveredState, deliveredResponse, herror]

/-! ### Runs -/

theorem runsTo_zero (s : State) : RunsTo s 0 s := rfl

theorem runsTo_succ {s t u : State} {k : Nat} (hstep : step s = .next u) (hrun : RunsTo u k t) :
    RunsTo s (k + 1) t := by
  simp only [RunsTo, Host.Core.run, hstep]
  exact hrun

/-- The oldest `n` requests in flight on a port, answered from the frame `F` in request order (10_state R24). -/
def answersOnPort (F : Frame) (l : List Pending) (port n : Nat) : List (Nat × Response) :=
  ((l.filter (fun p => p.port = port)).take n).map (fun p => (port, answerOf F p.word))

/-- What a schedule of answer turns on `ports` makes of `s` (20_memory R52, 60_exceptions R142). -/
def AnsweredInOrder (s : State) (ports : List Nat) (t : State) : Prop :=
  t.mem = s.mem ∧ t.platform = s.platform ∧ ∀ port : Nat,
    t.responses.filter (fun r => r.1 = port) =
      s.responses.filter (fun r => r.1 = port) ++ answersOnPort (frameOf s) s.inFlight port (ports.count port)

/-- Taking the oldest request `p` of its port takes the first answer off that port's and none off another's. -/
theorem answersOnPort_of_oldest (F : Frame) {before after : List Pending} {p : Pending}
    (hbefore : ∀ q ∈ before, q.port ≠ p.port) (ports : List Nat) (port : Nat) :
    answersOnPort F (before ++ p :: after) port ((p.port :: ports).count port) =
      [(p.port, answerOf F p.word)].filter (fun r => r.1 = port) ++
        answersOnPort F (before ++ after) port (ports.count port) := by
  by_cases hport : p.port = port
  · subst hport
    have hnone : before.filter (fun q => q.port = p.port) = [] := by simpa [List.filter_eq_nil_iff] using hbefore
    simp [answersOnPort, hnone]
  · simp [answersOnPort, hport]

/-- A turn on a port with nothing in flight adds no answer to any port (log 13). -/
theorem answersOnPort_of_idle (F : Frame) {l : List Pending} {idle : Nat} (hidle : ∀ q ∈ l, q.port ≠ idle)
    (ports : List Nat) (port : Nat) :
    answersOnPort F l port ((idle :: ports).count port) = answersOnPort F l port (ports.count port) := by
  by_cases hport : idle = port
  · subst hport
    have hnone : l.filter (fun q => q.port = idle) = [] := by simpa [List.filter_eq_nil_iff] using hidle
    simp [answersOnPort, hnone]
  · simp [hport]

/-- Any schedule of answer turns runs to its end, by induction on the schedule: each turn either answers the oldest
request of its port or passes. -/
theorem runsTo_of_answer_turns (ports : List Nat) (s : State) (hp : platformRefusal s.platform = none)
    (hturns : s.turns = ports.map .answer) (hover : ∀ p ∈ s.inFlight, p.overlapped = false) :
    ∃ t, RunsTo s ports.length t ∧ AnsweredInOrder s ports t := by
  induction ports generalizing s with
  | nil => exact ⟨s, runsTo_zero s, rfl, rfl, fun port => by simp [answersOnPort]⟩
  | cons port ports ih =>
    rw [List.map_cons] at hturns
    cases htake : takeOldest port s.inFlight with
    | none =>
      have hstep : step s = .next (endTurn s) := by
        rw [step_of_fetch_none hp (by simp [fetch, hturns, htake]), runTurn, hturns]
      obtain ⟨t, hrun, hmem, hplatform, hresponses⟩ := ih (endTurn s) hp (by simp [hturns]) hover
      refine ⟨t, runsTo_succ hstep hrun, hmem, hplatform, fun port' => ?_⟩
      rw [hresponses, answersOnPort_of_idle _ (takeOldest_none.mp htake)]
      rfl
    | some taken =>
      obtain ⟨p, ps⟩ := taken
      obtain ⟨before, after, hi, rfl, rfl, hbefore⟩ := takeOldest_some htake
      have hstep := step_of_oldest hp hi (.inl ⟨_, hturns, hbefore⟩)
      have hleft : (before ++ after).Sublist s.inFlight := hi ▸ (List.sublist_cons_self p after).append_left before
      have hkept : p.overlapped = false := hover p (by simp [hi])
      obtain ⟨t, hrun, hmem, hplatform, hresponses⟩ :=
        ih (answeredState s p (before ++ after) _) hp (by simp [hturns]) fun q hq => hover q (hleft.subset hq)
      refine ⟨t, runsTo_succ hstep hrun, hmem, hplatform, fun port' => ?_⟩
      rw [hresponses, hi, answersOnPort_of_oldest _ hbefore, ← List.append_assoc, ← List.filter_append]
      simp [hkept]

/-- Settles O31: the ports of the schedule, and the requests of each in their order. -/
theorem anyInterleavingAnswersInOrder : Obligations.AnyInterleavingAnswersInOrder :=
  fun s ports hp hturns hover => runsTo_of_answer_turns ports s hp hturns hover

/-- Settles O32, by induction on the requests in flight: each step answers the oldest. -/
theorem everyRequestInFlightIsAnswered : Obligations.EveryRequestInFlightIsAnswered := by
  intro s hp hturns hover
  generalize hl : s.inFlight = l
  induction l generalizing s with
  | nil => exact ⟨s, runsTo_zero s, hl, rfl, by simp⟩
  | cons p ps ih =>
    have hstep := step_of_oldest (before := []) hp hl (.inr ⟨hturns, rfl⟩)
    rw [hl] at hover
    obtain ⟨hfirst, hrest⟩ := List.forall_mem_cons.mp hover
    obtain ⟨t, hrun, hnone, hmem, hresponses⟩ := ih (answeredState s p ps _) hp (by simp [hturns]) hrest rfl
    refine ⟨t, runsTo_succ hstep hrun, hnone, hmem, ?_⟩
    simp [hresponses, hfirst]

end Sys2Proof.Machine
end

section
/-! PROOF. The turns of the environment: the whole step for a request presented, a host store and a reset (10_state R22,
20_memory R40 to R45, 70_reset R150), the machines refused, and the steps that complete. -/

namespace Sys2Proof.Machine

section
variable {s : State} {rest : List Turn}

/-! ### Requests and resets -/

theorem step_of_request {port : Nat} {w : Word} (hp : platformRefusal s.platform = none)
    (hturns : s.turns = .request port w :: rest) : step s = presentRequest port w (endTurn s) := by
  rw [step_of_fetch_none hp (by simp only [fetch, hturns]), runTurn, hturns]

theorem step_of_reset (hp : platformRefusal s.platform = none) (hturns : s.turns = .reset :: rest) :
    step s = .next (resetBlock (endTurn s)) := by
  rw [step_of_fetch_none hp (by simp only [fetch, hturns]), runTurn, hturns]

/-! ### Host stores -/

/-- The address and the bytes, at rising addresses, that a turn stores in a byte order; none for a turn that is no
host store (20_memory R44, R45; `step_of_store`). -/
def Turn.store? (o : ByteOrder) : Turn → Option (Nat × List Byte)
  | .storeByte a v => some (a, [v])
  | .storeHalf a v => some (a, bytesOfHalf o v)
  | .storeWord a v => some (a, bytesOfWord o v)
  | _ => none

variable {turn : Turn} {a : Nat} {bs : List Byte}

/-- A store of any width is one `hostStore` of its bytes. -/
theorem step_of_store (hp : platformRefusal s.platform = none) (hturns : s.turns = turn :: rest)
    (hstore : turn.store? s.platform.byteOrder = some (a, bs)) : step s = hostStore a bs (endTurn s) := by
  cases turn <;> simp only [Turn.store?, Option.some.injEq, Prod.mk.injEq, reduceCtorEq] at hstore
  all_goals
    obtain ⟨rfl, rfl⟩ := hstore
    rw [step_of_fetch_none hp (by simp only [fetch, hturns]), runTurn, hturns]

/-- The state after a host store: the bytes stand in the storage, every request in flight is overlapped (70_reset R153;
log 6), and the turn is over. -/
def storedState (s : State) (a : Nat) (bs : List Byte) : State :=
  { endTurn s with mem := s.mem.writeBytes a bs, inFlight := s.inFlight.map markOverlapped }

/-- A store inside the frame buffer completes (20_memory R45). -/
theorem step_of_store_inside (hp : platformRefusal s.platform = none) (hturns : s.turns = turn :: rest)
    (hstore : turn.store? s.platform.byteOrder = some (a, bs)) (hlo : s.platform.frameBase ≤ a)
    (hhi : a + bs.length ≤ s.platform.frameBase + 476) : step s = .next (storedState s a bs) := by
  rw [step_of_store hp hturns hstore, hostStore_of_inside (s := endTurn s) hlo hhi]
  rfl

/-- A store with a byte outside it faults (20_memory R40; log 14). -/
theorem step_of_store_outside (hp : platformRefusal s.platform = none) (hturns : s.turns = turn :: rest)
    (hstore : turn.store? s.platform.byteOrder = some (a, bs))
    (hout : a < s.platform.frameBase ∨ s.platform.frameBase + 476 < a + bs.length) :
    step s = .fault .outsideFrame := by
  rw [step_of_store hp hturns hstore, hostStore_of_outside (s := endTurn s) hout]

/-- The storage aside, the state after a store is given in full. -/
theorem storedState_frame (hturns : s.turns = turn :: rest) (a : Nat) (bs : List Byte) :
    storedState s a bs =
      { s with
        turns := rest
        mem := (storedState s a bs).mem
        inFlight := s.inFlight.map (fun p => { p with overlapped := true })
        resp := none
        reads := [] } := by
  simp only [storedState, endTurn, hturns, List.tail_cons]
  rfl

end

/-! ### The frame after a store -/

section
variable (s : State) (a : Nat) (bs : List Byte)

@[simp] theorem storedState_mem : (storedState s a bs).mem = s.mem.writeBytes a bs := rfl
@[simp] theorem storedState_platform : (storedState s a bs).platform = s.platform := rfl

theorem frameByte_storedState_outside {a' : Nat} (h : a' < a ∨ a + bs.length ≤ a') :
    frameByte (storedState s a bs) a' = frameByte s a' := by
  rw [frameByte, storedState_mem, Memory.read?_writeBytes_of_outside bs s.mem a a' h, frameByte]

theorem frameByte_storedState {j : Nat} (hj : j < bs.length) : frameByte (storedState s a bs) (a + j) = bs[j] := by
  rw [frameByte, storedState_mem, Memory.read?_writeBytes bs s.mem a j hj, Option.getD_some]

end

/-- A word stored is the word read there, in either byte order (20_memory R44). -/
theorem frameWord_storedState (s : State) (k : Nat) (v : Word) :
    frameWord (storedState s (s.platform.frameBase + 4 * k) (bytesOfWord s.platform.byteOrder v)) k = v := by
  obtain ⟨b0, b1, b2, b3, hbytes, hword⟩ := wordOfBytes_bytesOfWord s.platform.byteOrder v
  have byte {j : Nat} (hj : j < [b0, b1, b2, b3].length) :=
    frameByte_storedState s (s.platform.frameBase + 4 * k) [b0, b1, b2, b3] hj
  rw [hbytes, frameWord_eq_wordOfBytes]
  simp only [hostByte, storedState_platform]
  rw [byte (j := 0) (by simp), byte (j := 1) (by simp), byte (j := 2) (by simp), byte (j := 3) (by simp)]
  exact hword

/-- Settles O38: the four bytes of the word are read back, and no byte outside them is written. -/
theorem storedWordIsReadBack : Obligations.StoredWordIsReadBack := by
  intro s k v rest hp hk hturns
  have hlength := bytesOfWord_length s.platform.byteOrder v
  refine ⟨_, step_of_store_inside hp hturns rfl (by omega) (by omega), frameWord_storedState s k v, fun a ha => ?_,
    storedState_frame hturns _ _⟩
  exact frameByte_storedState_outside s _ _ (by omega)

/-! ### Lanes -/

/-- The half of a little host's word at byte `2*j` is its two bytes, the first the low one (20_memory R44). -/
theorem extractLsb'_half_little {s : State} (ho : s.platform.byteOrder = .little) {k j : Nat} (hk : k < 119)
    (hj : j < 2) : (frameWord s k).extractLsb' (16 * j) 16 = hostByte s k (2 * j + 1) ++ hostByte s k (2 * j) := by
  have hlow := (frameWordsFromHostBytes s k (2 * j) hk (by omega)).1 ho
  have hhigh := (frameWordsFromHostBytes s k (2 * j + 1) hk (by omega)).1 ho
  rw [hostByte, hostByte, ← hlow, ← hhigh, BitVec.extractLsb'_append_extractLsb'_eq_extractLsb' (by omega),
    show 8 * (2 * j) = 16 * j by omega]

/-- In a big host's word it is counted down from the top, the first byte the high one (20_memory R44). -/
theorem extractLsb'_half_big {s : State} (ho : s.platform.byteOrder = .big) {k j : Nat} (hk : k < 119)
    (hj : j < 2) : (frameWord s k).extractLsb' (16 - 16 * j) 16 = hostByte s k (2 * j) ++ hostByte s k (2 * j + 1) := by
  have hhigh := (frameWordsFromHostBytes s k (2 * j) hk (by omega)).2 ho
  have hlow := (frameWordsFromHostBytes s k (2 * j + 1) hk (by omega)).2 ho
  rw [hostByte, hostByte, ← hlow, ← hhigh, BitVec.extractLsb'_append_extractLsb'_eq_extractLsb' (by omega),
    show 24 - 8 * (2 * j + 1) = 16 - 16 * j by omega]

/-- A halfword is its two bytes. -/
theorem half_eq_append (v : Half) : v.extractLsb' 8 8 ++ v.extractLsb' 0 8 = v := by
  rw [BitVec.extractLsb'_append_extractLsb'_eq_extractLsb' (by decide)]
  exact BitVec.extractLsb'_eq_self

section
variable {s : State}

/-- The state after a halfword is stored at half `j` of word `k`. -/
def halfStoredState (s : State) (k j : Nat) (v : Half) : State :=
  storedState s (s.platform.frameBase + 4 * k + 2 * j) (bytesOfHalf s.platform.byteOrder v)

/-- The bytes of the halfword are those of its place in the word (20_memory R44). -/
theorem hostByte_halfStoredState (k j : Nat) (v : Half) {n : Nat}
    (hn : n < (bytesOfHalf s.platform.byteOrder v).length) :
    hostByte (halfStoredState s k j v) k (2 * j + n) = (bytesOfHalf s.platform.byteOrder v)[n] := by
  rw [hostByte, halfStoredState, storedState_platform, ← Nat.add_assoc]
  exact frameByte_storedState s _ _ hn

/-- A halfword stored in a little host stands low byte first (20_memory R45; log 17). -/
theorem frameWord_halfStoredState_little (ho : s.platform.byteOrder = .little) {k j : Nat} (hk : k < 119) (hj : j < 2)
    (v : Half) : (frameWord (halfStoredState s k j v) k).extractLsb' (16 * j) 16 = v := by
  have hfirst := hostByte_halfStoredState (s := s) k j v (n := 0) (by simp)
  have hsecond := hostByte_halfStoredState (s := s) k j v (n := 1) (by simp)
  rw [Nat.add_zero] at hfirst
  rw [extractLsb'_half_little (s := halfStoredState s k j v) ho hk hj, hfirst, hsecond]
  simp only [ho]
  exact half_eq_append v

/-- A halfword stored in a big host stands high byte first (20_memory R45; log 17). -/
theorem frameWord_halfStoredState_big (ho : s.platform.byteOrder = .big) {k j : Nat} (hk : k < 119) (hj : j < 2)
    (v : Half) : (frameWord (halfStoredState s k j v) k).extractLsb' (16 - 16 * j) 16 = v := by
  have hfirst := hostByte_halfStoredState (s := s) k j v (n := 0) (by simp)
  have hsecond := hostByte_halfStoredState (s := s) k j v (n := 1) (by simp)
  rw [Nat.add_zero] at hfirst
  rw [extractLsb'_half_big (s := halfStoredState s k j v) ho hk hj, hfirst, hsecond]
  simp only [ho]
  exact half_eq_append v

end

/-- Settles O39: the bytes stored are read back in their lanes, and no byte outside them is written. -/
theorem narrowStoresChangeTheirLanes : Obligations.NarrowStoresChangeTheirLanes := by
  intro s k rest hp hk
  refine ⟨fun j v hj hturns => ?_, fun j v hj hturns => ?_⟩
  · have hbyte := frameByte_storedState s (s.platform.frameBase + 4 * k + j) [v] (j := 0) (by simp)
    have hlane := frameWordsFromHostBytes (storedState s (s.platform.frameBase + 4 * k + j) [v]) k j hk hj
    refine ⟨_, step_of_store_inside hp hturns rfl (by omega) (by simp; omega), fun ho => (hlane.1 ho).trans hbyte,
      fun ho => (hlane.2 ho).trans hbyte, hbyte, fun a ha => ?_, storedState_frame hturns _ _⟩
    exact frameByte_storedState_outside s _ _ (by simp; omega)
  · have hlength := bytesOfHalf_length s.platform.byteOrder v
    refine ⟨_, step_of_store_inside hp hturns rfl (by omega) (by omega),
      fun ho => frameWord_halfStoredState_little ho hk hj v, fun ho => frameWord_halfStoredState_big ho hk hj v,
      fun a ha => ?_, storedState_frame hturns _ _⟩
    exact frameByte_storedState_outside s _ _ (by omega)

/-- Settles O40: in each width the last byte decides. -/
theorem storeOutsideFrameFaults : Obligations.StoreOutsideFrameFaults := by
  intro s a rest hp
  refine ⟨fun v hturns hout => ?_, fun v hturns hout => ?_, fun v hturns hout => ?_⟩
  · exact step_of_store_outside hp hturns rfl (by simp; omega)
  · exact step_of_store_outside hp hturns rfl (by rw [bytesOfHalf_length]; omega)
  · exact step_of_store_outside hp hturns rfl (by rw [bytesOfWord_length]; omega)

/-! ### Requests presented, resets, refusals -/

/-- Settles O34: the port decides. -/
theorem presentedRequestIsInFlight : Obligations.PresentedRequestIsInFlight := by
  intro s port w rest hp hturns
  rw [step_of_request hp hturns, presentRequest, endTurn_platform]
  refine ⟨fun hport => ?_, fun hport => if_neg (by omega)⟩
  rw [if_pos hport]
  simp [endTurn, hturns]

/-- Settles O43: a reset empties the list of requests in flight, and the turn is over. -/
theorem resetDiscardsRequests : Obligations.ResetDiscardsRequests := by
  intro s rest hp hturns
  rw [step_of_reset hp hturns]
  simp [resetBlock, endTurn, hturns]

theorem step_of_platformRefusal {s : State} {r : Refusal} (h : platformRefusal s.platform = some r) :
    step s = .refused r := by
  simp only [step, h]

/-- Settles O42: the size is looked at first, then the base, then the ports (log 5). -/
theorem unadmittedFramesAreRefused : Obligations.UnadmittedFramesAreRefused := by
  intro s
  refine ⟨fun hsize hbase => ?_, fun hsize hbase hports => ?_, fun hsize => ?_⟩ <;>
    exact step_of_platformRefusal (by simp [platformRefusal, *])

/-- Settles O44: the storage of the reset state lists no byte. -/
theorem resetState : Obligations.ResetState :=
  ⟨rfl, rfl, fun _ => rfl⟩

/-! ### The steps that complete -/

/-- A step that takes a request completes: answering never stops (60_exceptions R133, R136). -/
theorem completes_of_fetch_some {s u : State} {p : Pending} (hp : platformRefusal s.platform = none)
    (hf : fetch s = some (p, u)) : Completes s := by
  obtain ⟨ks, r, hexec, -⟩ := noRequestStops (decode p.word) u
  exact ⟨_, by rw [step_of_fetch_some hp hf, hexec]; rfl⟩

/-- Settles O45: a request taken is answered, and each turn of the environment completes under its own condition. -/
theorem admittedStepsComplete : Obligations.AdmittedStepsComplete := by
  intro s hp hrequest hbyte hhalf hword
  cases hf : fetch s with
  | some taken => exact completes_of_fetch_some hp hf
  | none =>
    have hidle := step_of_fetch_none hp hf
    rw [runTurn] at hidle
    cases hturns : s.turns with
    | nil => rw [hturns] at hidle; exact ⟨_, hidle⟩
    | cons turn rest =>
      cases turn with
      | answer port => rw [hturns] at hidle; exact ⟨_, hidle⟩
      | reset => exact ⟨_, step_of_reset hp hturns⟩
      | request port w =>
        exact ⟨_, (presentedRequestIsInFlight s port w rest hp hturns).1 (hrequest port w rest hturns)⟩
      | storeByte a v =>
        obtain ⟨hlo, hhi⟩ := hbyte a v rest hturns
        exact ⟨_, step_of_store_inside hp hturns rfl hlo hhi⟩
      | storeHalf a v =>
        obtain ⟨hlo, hhi⟩ := hhalf a v rest hturns
        exact ⟨_, step_of_store_inside hp hturns rfl hlo (by rwa [bytesOfHalf_length])⟩
      | storeWord a v =>
        obtain ⟨hlo, hhi⟩ := hword a v rest hturns
        exact ⟨_, step_of_store_inside hp hturns rfl hlo (by rwa [bytesOfWord_length])⟩

end Sys2Proof.Machine
end


section
/-! PROOF. What every step keeps: the kinds of step, each with the state it gives, and from these the machine's invariant
(20_memory R40, R41, 60_exceptions R133, 10_state R24) and the other laws of a step. -/

namespace Sys2Proof.Machine

/-! ### The kinds of step -/

/-- The state after a request is presented: in flight after all earlier ones, and counted (10_state R22). -/
def presentedState (s : State) (port : Nat) (w : Word) : State :=
  { endTurn s with
    inFlight := s.inFlight ++ [{ port := port, word := w, overlapped := false }]
    position := s.position + 1 }

/-- The kinds of step that answer a next state, with the state each gives. -/
inductive StepEffect (s : State) : State → Prop
  /-- The block answers a request, with a proper response after reads of frame words (10_state R24). -/
  | answered (p : Pending) (u : State) (before after : List Pending) (ks : List Nat) (r : Response) (draws : Nat)
      (hfetch : fetch s = some (p, u)) (htaken : s.inFlight = before ++ p :: after)
      (hturn : s.turns = [] ∨ ∃ rest, s.turns = .answer p.port :: rest)
      (hproper : properResponse r) (hreads : ∀ k ∈ ks, k < 119) :
      StepEffect s (deliveredState s (before ++ after) ks p.port r draws)
  /-- There is nothing to answer (log 13). -/
  | passed (hfetch : fetch s = none) (hturn : s.turns = [] ∨ ∃ port rest, s.turns = .answer port :: rest) :
      StepEffect s (endTurn s)
  /-- A request is presented on a port that exists (10_state R22). -/
  | presented (port : Nat) (w : Word) (rest : List Turn) (hfetch : fetch s = none)
      (hturn : s.turns = .request port w :: rest) (hport : port < s.platform.ports) :
      StepEffect s (presentedState s port w)
  /-- The host stores bytes inside the frame buffer (20_memory R45). -/
  | stored (turn : Turn) (rest : List Turn) (a : Nat) (bs : List Byte) (hfetch : fetch s = none)
      (hturn : s.turns = turn :: rest) (hstore : turn.store? s.platform.byteOrder = some (a, bs))
      (hlo : s.platform.frameBase ≤ a) (hhi : a + bs.length ≤ s.platform.frameBase + 476) :
      StepEffect s (storedState s a bs)
  /-- The block is reset (70_reset R150). -/
  | reset (rest : List Turn) (hfetch : fetch s = none) (hturn : s.turns = .reset :: rest) :
      StepEffect s (resetBlock (endTurn s))

/-- Every step that answers a next state is of one of these kinds. -/
theorem stepEffect_of_step {s t : State} (h : step s = .next t) : StepEffect s t := by
  obtain ⟨-, ⟨p, u, ks, r, hfetch, -, hproper, hreads, rfl⟩ | ⟨hfetch, hrun⟩⟩ := step_next h
  · obtain ⟨before, after, htaken, rfl, hturn⟩ := fetch_some hfetch
    rw [deliver_answeredWith]
    exact .answered p _ before after ks _ _ hfetch htaken
      (hturn.imp And.left fun ⟨rest, hrest, _⟩ => ⟨rest, hrest⟩) (deliveredResponse_proper hproper p _) hreads
  · obtain ⟨hturn, rfl⟩ | ⟨port, w, rest, hturn, hport, rfl⟩ | ⟨a, bs, rest, hstore, hlo, hhi, rfl⟩ |
      ⟨rest, hturn, rfl⟩ := runTurn_next hrun
    · exact .passed hfetch hturn
    · exact .presented port w rest hfetch hturn hport
    · obtain ⟨v, rfl, hturn⟩ | ⟨v, rfl, hturn⟩ | ⟨v, rfl, hturn⟩ := hstore
      all_goals exact .stored _ rest a _ hfetch hturn rfl hlo hhi
    · exact .reset rest hfetch hturn

/-! ### The laws of a step -/

/-- Settles O33: only an answered request delivers a response. -/
theorem oneResponsePerRequest : Obligations.OneResponsePerRequest := by
  intro s t h
  cases stepEffect_of_step h with
  | answered p u before after ks r draws hfetch htaken =>
    exact .inl ⟨p, u, r, hfetch, rfl, rfl, by rw [htaken]; simp [deliveredState]; omega⟩
  | passed hfetch | presented _ _ _ hfetch | stored _ _ _ _ hfetch | reset _ hfetch => exact .inr ⟨hfetch, rfl, rfl⟩

/-- Settles O35: only a request turn moves the position. -/
theorem positionCountsRequests : Obligations.PositionCountsRequests := by
  intro s t h
  have keeps (hsame : t.position = s.position) (hother : ∀ port w rest, s.turns ≠ .request port w :: rest) :
      ((∃ port w rest, s.turns = .request port w :: rest) → t.position = s.position + 1) ∧
      ((∀ port w rest, s.turns ≠ .request port w :: rest) → t.position = s.position) :=
    ⟨fun ⟨port, w, rest, hrequest⟩ => absurd hrequest (hother port w rest), fun _ => hsame⟩
  cases stepEffect_of_step h with
  | presented port w rest _ hturn => exact ⟨fun _ => rfl, fun hnone => absurd hturn (hnone port w rest)⟩
  | answered p u before after ks r draws _ _ hturn =>
    exact keeps rfl fun _ _ _ hrequest => by simp [hrequest] at hturn
  | passed _ hturn => exact keeps rfl fun _ _ _ hrequest => by simp [hrequest] at hturn
  | reset rest _ hturn => exact keeps rfl fun _ _ _ hrequest => by simp [hrequest] at hturn
  | stored turn rest a bs _ hturn hstore =>
    refine keeps rfl fun port w rest' hrequest => ?_
    obtain ⟨rfl, -⟩ := List.cons.inj (hturn.symm.trans hrequest)
    cases hstore

/-- Settles O41: the platform is never touched, and only a store touches the storage. -/
theorem onlyTheHostWritesTheFrame : Obligations.OnlyTheHostWritesTheFrame := by
  intro s t h
  cases stepEffect_of_step h with
  | answered | passed | presented | reset => exact ⟨rfl, fun _ _ _ => rfl⟩
  | stored turn rest a bs _ hturn hstore =>
    refine ⟨rfl, fun hbyte hhalf hword => ?_⟩
    cases turn with
    | storeByte a v => exact absurd hturn (hbyte a v rest)
    | storeHalf a v => exact absurd hturn (hhalf a v rest)
    | storeWord a v => exact absurd hturn (hword a v rest)
    | _ => cases hstore

/-! ### The invariant -/

section
variable {s : State}

/-- Ending a turn without a response keeps the invariant. -/
theorem inv_endTurn (h : Inv s) : Inv (endTurn s) :=
  { h with
    respProper := nofun
    readsInFrame := nofun }

/-- Answering a request takes it off those in flight as its one response is delivered. -/
theorem inv_deliveredState {p : Pending} {before after : List Pending} {ks : List Nat} {r : Response} (h : Inv s)
    (htaken : s.inFlight = before ++ p :: after) (hproper : properResponse r) (hreads : ∀ k ∈ ks, k < 119)
    (draws : Nat) :
    Inv (deliveredState s (before ++ after) ks p.port r draws) := by
  have hports := h.portsInFlight
  have hcount := h.oneResponseEach
  simp only [htaken, List.forall_mem_append, List.forall_mem_cons, List.length_append, List.length_cons]
    at hports hcount
  obtain ⟨hbefore, hport, hafter⟩ := hports
  exact
    { h with
      portsInFlight := List.forall_mem_append.mpr ⟨hbefore, hafter⟩
      portsAnswered := List.forall_mem_append.mpr ⟨h.portsAnswered, List.forall_mem_singleton.mpr hport⟩
      answeredProper := List.forall_mem_append.mpr ⟨h.answeredProper, List.forall_mem_singleton.mpr hproper⟩
      respProper := fun r' hr => Option.some.inj hr ▸ hproper
      readsInFrame := hreads
      oneResponseEach := by simp [deliveredState]; omega }

/-- Presenting a request counts it at the host's position. -/
theorem inv_presentedState (h : Inv s) {port : Nat} (w : Word) (hport : port < s.platform.ports) :
    Inv (presentedState s port w) :=
  { inv_endTurn h with
    portsInFlight := List.forall_mem_append.mpr ⟨h.portsInFlight, List.forall_mem_singleton.mpr hport⟩
    oneResponseEach := by have := h.oneResponseEach; simp [presentedState]; omega }

/-- A store inside the frame buffer keeps the storage canonical and within it. -/
theorem inv_storedState (h : Inv s) {a : Nat} {bs : List Byte} (hlo : s.platform.frameBase ≤ a)
    (hhi : a + bs.length ≤ s.platform.frameBase + 476) : Inv (storedState s a bs) :=
  { inv_endTurn h with
    canonical := Memory.wf_writeBytes bs h.canonical a
    inFrame := fun c hc => by
      rcases Memory.mem_writeBytes hc with hnew | hold
      · exact ⟨hlo.trans hnew.1, hnew.2.trans_le hhi⟩
      · exact h.inFrame c hold
    portsInFlight := List.forall_mem_map.mpr h.portsInFlight
    oneResponseEach := by simpa [storedState] using h.oneResponseEach }

/-- A reset of the block leaves no request in flight. -/
theorem inv_resetBlock (h : Inv s) : Inv (resetBlock s) :=
  { h with
    portsInFlight := nofun
    oneResponseEach := (Nat.le_add_right _ _).trans h.oneResponseEach }

end

/-- Settles O46: each kind of step keeps the invariant. -/
theorem everyStepKeepsInv : Obligations.EveryStepKeepsInv := by
  intro s t h hstep
  cases stepEffect_of_step hstep with
  | answered p u before after ks r draws _ htaken _ hproper hreads =>
    exact inv_deliveredState h htaken hproper hreads draws
  | passed => exact inv_endTurn h
  | presented port w rest _ _ hport => exact inv_presentedState h w hport
  | stored turn rest a bs _ _ _ hlo hhi => exact inv_storedState h hlo hhi
  | reset => exact inv_resetBlock (inv_endTurn h)

/-- Settles O47: every list of the reset state is empty, and it has one port. -/
theorem invAtReset : Obligations.InvAtReset where
  canonical := List.Pairwise.nil
  inFrame := nofun
  portExists := le_refl 1
  portsInFlight := nofun
  portsAnswered := nofun
  answeredProper := nofun
  respProper := nofun
  readsInFrame := nofun
  oneResponseEach := le_refl 0

end Sys2Proof.Machine
end
